-- ==== Sys2Proof/Word.lean ====
section
/-! DEFINITION. The value types of the machine: the widths of 00_scope.md rule R8. All arithmetic on them is unsigned
and wraps at the width (R10). -/

namespace Sys2Proof

/-- A memory cell, a general register, a timer, an immediate (R8): 8 bits. -/
abbrev Byte := BitVec 8

/-- An instruction word, the program counter, the index register, a stack entry (R8): 16 bits. -/
abbrev Word := BitVec 16

/-- The address field `addr = w[11:0]` of an instruction word (R72): 12 bits. -/
abbrev Addr12 := BitVec 12

/-- The field `nibble = w[3:0]` of an instruction word (R72), a sprite's height: 4 bits. -/
abbrev Nibble := BitVec 4

/-- A key of the key latch, 0x0 to 0xF (R8, R37): 4 bits. -/
abbrev Key := BitVec 4

/-- The number of a general register, `V0` to `VF` (R21). -/
abbrev Reg := Fin 16

/-- `VF`, the register that is also the flag (R11, R22). -/
abbrev vf : Reg := 15

end Sys2Proof
end

