-- ==== Sys2Proof/Syntax.lean ====
section
/-! DEFINITION. The instructions: one constructor per entry of the instruction table (30_encoding.md rule R76), in the
table's order, with every field the entry has (R71), the unused ones too (R75). -/

namespace Sys2Proof

/-- The 35 instruction kinds of R76 with their operands. A word that matches no entry (R82) is no instruction; the cycle
runs it as a no-op (R83, `Machine.execUnknown`). -/
inductive Instr where
  /-- `00E0` CLS (R210) -/
  | cls
  /-- `00EE` RET (R101) -/
  | ret
  /-- `0nnn` SYS addr (R100) -/
  | sys (addr : Addr12)
  /-- `1nnn` JP addr (R102) -/
  | jp (addr : Addr12)
  /-- `2nnn` CALL addr (R103) -/
  | call (addr : Addr12)
  /-- `3xkk` SE Vx, kk (R104) -/
  | seImm (x : Reg) (kk : Byte)
  /-- `4xkk` SNE Vx, kk (R105) -/
  | sneImm (x : Reg) (kk : Byte)
  /-- `5xy0` SE Vx, Vy (R106) -/
  | seReg (x y : Reg)
  /-- `6xkk` LD Vx, kk (R142) -/
  | ldImm (x : Reg) (kk : Byte)
  /-- `7xkk` ADD Vx, kk (R143) -/
  | addImm (x : Reg) (kk : Byte)
  /-- `8xy0` LD Vx, Vy (R144) -/
  | ldReg (x y : Reg)
  /-- `8xy1` OR Vx, Vy (R145) -/
  | orReg (x y : Reg)
  /-- `8xy2` AND Vx, Vy (R146) -/
  | andReg (x y : Reg)
  /-- `8xy3` XOR Vx, Vy (R147) -/
  | xorReg (x y : Reg)
  /-- `8xy4` ADD Vx, Vy (R148) -/
  | addReg (x y : Reg)
  /-- `8xy5` SUB Vx, Vy (R149) -/
  | sub (x y : Reg)
  /-- `8xy6` SHR Vx, with the ignored field y (R151, R75) -/
  | shr (x y : Reg)
  /-- `8xy7` SUBN Vx, Vy (R150) -/
  | subn (x y : Reg)
  /-- `8xyE` SHL Vx, with the ignored field y (R152, R75) -/
  | shl (x y : Reg)
  /-- `9xy0` SNE Vx, Vy (R107) -/
  | sneReg (x y : Reg)
  /-- `Annn` LD I, addr (R180) -/
  | ldI (addr : Addr12)
  /-- `Bnnn` JP V0, addr (R108) -/
  | jpV0 (addr : Addr12)
  /-- `Cxkk` RND Vx, kk (R153) -/
  | rnd (x : Reg) (kk : Byte)
  /-- `Dxyn` DRW Vx, Vy, n (R211) -/
  | drw (x y : Reg) (n : Nibble)
  /-- `Ex9E` SKP Vx (R240) -/
  | skp (x : Reg)
  /-- `ExA1` SKNP Vx (R241) -/
  | sknp (x : Reg)
  /-- `Fx07` LD Vx, DT (R242) -/
  | ldVxDT (x : Reg)
  /-- `Fx0A` LD Vx, K (R243) -/
  | ldVxK (x : Reg)
  /-- `Fx15` LD DT, Vx (R244) -/
  | ldDTVx (x : Reg)
  /-- `Fx18` LD ST, Vx (R245) -/
  | ldSTVx (x : Reg)
  /-- `Fx1E` ADD I, Vx (R181) -/
  | addI (x : Reg)
  /-- `Fx29` LD F, Vx (R182) -/
  | ldF (x : Reg)
  /-- `Fx33` LD B, Vx (R183) -/
  | ldB (x : Reg)
  /-- `Fx55` LD [I], Vx (R184) -/
  | storeRegs (x : Reg)
  /-- `Fx65` LD Vx, [I] (R185) -/
  | loadRegs (x : Reg)
  deriving DecidableEq, Repr

end Sys2Proof
end

