-- ==== Sys2Proof/WellFormed.lean ====
section
/-! DEFINITION. Which terms of `Instr` the hardware has: those some instruction word resolves to. -/

namespace Sys2Proof

/-- Two words of the form `0nnn` are not `SYS`: the table's first two entries, `CLS` (`00E0`) and `RET` (`00EE`), take
them (R78). Every other term is the reading of some word (R73, R82). -/
def Instr.wellFormed (i : Instr) : Bool :=
  match i with
  | .sys addr => addr ≠ 0x0E0#12 && addr ≠ 0x0EE#12
  | .cls | .ret | .jp _ | .call _ | .seImm _ _ | .sneImm _ _ | .seReg _ _ | .ldImm _ _ | .addImm _ _ | .ldReg _ _
  | .orReg _ _ | .andReg _ _ | .xorReg _ _ | .addReg _ _ | .sub _ _ | .shr _ _ | .subn _ _ | .shl _ _ | .sneReg _ _
  | .ldI _ | .jpV0 _ | .rnd _ _ | .drw _ _ _ | .skp _ | .sknp _ | .ldVxDT _ | .ldVxK _ | .ldDTVx _ | .ldSTVx _
  | .addI _ | .ldF _ | .ldB _ | .storeRegs _ | .loadRegs _ => true

end Sys2Proof
end

