-- ==== Sys2Proof/Decode.lean ====
section
/-! DEFINITION. Decoding (30_encoding.md): the fields of a word (R72), the ordered instruction table with first match
wins (R76, R77), the operands a kind takes from the fields (R71, R74), and the encoder written from the same table. -/

namespace Sys2Proof

/-- The fields of a word (R72). Every field is computed for every word (R73). -/
structure Fields where
  addr : Addr12
  nibble : Nibble
  x : Reg
  y : Reg
  kk : Byte
  deriving DecidableEq, Repr

/-- Field extraction, R72: `addr = w[11:0]`, `nibble = w[3:0]`, `x = w[11:8]`, `y = w[7:4]`, `kk = w[7:0]`. -/
def fieldsOf (w : Word) : Fields :=
  { addr := w.extractLsb' 0 12
    nibble := w.extractLsb' 0 4
    x := (w.extractLsb' 8 4).toFin
    y := (w.extractLsb' 4 4).toFin
    kk := w.extractLsb' 0 8 }

/-- The 35 instruction kinds (R17, R76), in the table's order. -/
inductive Kind where
  | cls | ret | sys | jp | call | seImm | sneImm | seReg | ldImm | addImm | ldReg | orReg | andReg | xorReg | addReg
  | sub | shr | subn | shl | sneReg | ldI | jpV0 | rnd | drw | skp | sknp | ldVxDT | ldVxK | ldDTVx | ldSTVx | addI
  | ldF | ldB | storeRegs | loadRegs
  deriving DecidableEq, Repr

/-- One entry of the instruction table: "an (instruction-kind, bitmask, expected-pattern) triple" (R76). -/
structure Row where
  kind : Kind
  mask : Word
  pattern : Word
  deriving DecidableEq, Repr

/-- Rows 1 to 9 of R76. -/
def rows0 : List Row :=
  [ ⟨.cls, 0xFFFF, 0x00E0⟩, ⟨.ret, 0xFFFF, 0x00EE⟩, ⟨.sys, 0xF000, 0x0000⟩,
    ⟨.jp, 0xF000, 0x1000⟩, ⟨.call, 0xF000, 0x2000⟩, ⟨.seImm, 0xF000, 0x3000⟩,
    ⟨.sneImm, 0xF000, 0x4000⟩, ⟨.seReg, 0xF00F, 0x5000⟩, ⟨.ldImm, 0xF000, 0x6000⟩ ]

/-- Rows 10 to 20 of R76. -/
def rows1 : List Row :=
  [ ⟨.addImm, 0xF000, 0x7000⟩, ⟨.ldReg, 0xF00F, 0x8000⟩, ⟨.orReg, 0xF00F, 0x8001⟩,
    ⟨.andReg, 0xF00F, 0x8002⟩, ⟨.xorReg, 0xF00F, 0x8003⟩, ⟨.addReg, 0xF00F, 0x8004⟩,
    ⟨.sub, 0xF00F, 0x8005⟩, ⟨.shr, 0xF00F, 0x8006⟩, ⟨.subn, 0xF00F, 0x8007⟩,
    ⟨.shl, 0xF00F, 0x800E⟩, ⟨.sneReg, 0xF00F, 0x9000⟩ ]

/-- Rows 21 to 35 of R76. -/
def rows2 : List Row :=
  [ ⟨.ldI, 0xF000, 0xA000⟩, ⟨.jpV0, 0xF000, 0xB000⟩, ⟨.rnd, 0xF000, 0xC000⟩,
    ⟨.drw, 0xF000, 0xD000⟩, ⟨.skp, 0xF0FF, 0xE09E⟩, ⟨.sknp, 0xF0FF, 0xE0A1⟩,
    ⟨.ldVxDT, 0xF0FF, 0xF007⟩, ⟨.ldVxK, 0xF0FF, 0xF00A⟩, ⟨.ldDTVx, 0xF0FF, 0xF015⟩,
    ⟨.ldSTVx, 0xF0FF, 0xF018⟩, ⟨.addI, 0xF0FF, 0xF01E⟩, ⟨.ldF, 0xF0FF, 0xF029⟩,
    ⟨.ldB, 0xF0FF, 0xF033⟩, ⟨.storeRegs, 0xF0FF, 0xF055⟩, ⟨.loadRegs, 0xF0FF, 0xF065⟩ ]

/-- The instruction table, R76 (decisions D2, D4: UNVERIFIED, unsafe, assumption 11), in its order: the order matters for `CLS` and `RET` before `SYS` only (R78). -/
def table : List Row := rows0 ++ rows1 ++ rows2

/-- A word matches an entry when `w & mask = pattern` (R77). -/
def Row.covers (r : Row) (w : Word) : Bool := w &&& r.mask == r.pattern

/-- `Resolve(w)`, R77: the kind of the first entry that matches, or none for an unknown word (R82). -/
def resolve (w : Word) : Option Kind := (table.find? (fun r => r.covers w)).map Row.kind

/-- The operands each kind takes from the fields (R71, R74). -/
def Kind.build (k : Kind) (f : Fields) : Instr :=
  match k with
  | .cls => .cls
  | .ret => .ret
  | .sys => .sys f.addr
  | .jp => .jp f.addr
  | .call => .call f.addr
  | .seImm => .seImm f.x f.kk
  | .sneImm => .sneImm f.x f.kk
  | .seReg => .seReg f.x f.y
  | .ldImm => .ldImm f.x f.kk
  | .addImm => .addImm f.x f.kk
  | .ldReg => .ldReg f.x f.y
  | .orReg => .orReg f.x f.y
  | .andReg => .andReg f.x f.y
  | .xorReg => .xorReg f.x f.y
  | .addReg => .addReg f.x f.y
  | .sub => .sub f.x f.y
  | .shr => .shr f.x f.y
  | .subn => .subn f.x f.y
  | .shl => .shl f.x f.y
  | .sneReg => .sneReg f.x f.y
  | .ldI => .ldI f.addr
  | .jpV0 => .jpV0 f.addr
  | .rnd => .rnd f.x f.kk
  | .drw => .drw f.x f.y f.nibble
  | .skp => .skp f.x
  | .sknp => .sknp f.x
  | .ldVxDT => .ldVxDT f.x
  | .ldVxK => .ldVxK f.x
  | .ldDTVx => .ldDTVx f.x
  | .ldSTVx => .ldSTVx f.x
  | .addI => .addI f.x
  | .ldF => .ldF f.x
  | .ldB => .ldB f.x
  | .storeRegs => .storeRegs f.x
  | .loadRegs => .loadRegs f.x

/-- The instruction a word is, none for an unknown word (R82). Each word decodes alone (R90). -/
def decodeWord (w : Word) : Option Instr := (resolve w).map (fun k => k.build (fieldsOf w))

/-- A word's two bytes as they lie in memory, lower address first: big-endian (R55, R70). -/
def wordBytes (w : Word) : List Byte := [w.extractLsb' 8 8, w.extractLsb' 0 8]

/-- The word of two bytes as they lie in memory, `hi` at the lower address (R55). -/
def wordOfBytes (hi lo : Byte) : Word := hi ++ lo

/-- Why a byte list is no instruction. -/
inductive DecodeReject where
  /-- fewer than two bytes: no instruction word (R70) -/
  | shortInput
  /-- a word that matches no entry of the table (R82) -/
  | unknownWord (w : Word)
  deriving DecidableEq, Repr

/-- The decoder on any bytes: the first instruction and the bytes after it, or the reason there is none. -/
def decodeBytes (bytes : List Byte) : Except DecodeReject (Instr × List Byte) :=
  match bytes with
  | hi :: lo :: rest =>
    match decodeWord (wordOfBytes hi lo) with
    | some i => .ok (i, rest)
    | none => .error (.unknownWord (wordOfBytes hi lo))
  | _ => .error .shortInput

/-- The instruction the decoder reads from the `nbits` bits `w`, bit 0 the least significant bit of the (only) word, bits
from `nbits` on being 0; none where the decoder refuses, and for more bits than an instruction has (R70: 16). -/
def decodeTableWord (nbits w : Nat) : Option Instr :=
  if nbits ≤ 16 then
    match decodeBytes (wordBytes (BitVec.ofNat 16 (w % 2 ^ nbits))) with
    | .ok (i, _) => some i
    | .error _ => none
  else none

/-! ## The encoder -/

/-- A register number as the four bits of its field (R72). -/
def regBits (x : Reg) : BitVec 4 := BitVec.ofNat 4 x.val

/-- Format `NNN` (R71): opcode, addr. -/
def encNNN (op : BitVec 4) (addr : Addr12) : Word := op ++ addr

/-- Format `XKK` (R71): opcode, x, kk. -/
def encXKK (op : BitVec 4) (x : Reg) (kk : Byte) : Word := op ++ regBits x ++ kk

/-- Formats `XY` and `XYN` (R71): opcode, x, y, function or n. -/
def encXYN (op : BitVec 4) (x y : Reg) (n : Nibble) : Word := op ++ regBits x ++ regBits y ++ n

/-- Format `X` (R71): opcode, x, the two function digits as one byte. -/
def encX (op : BitVec 4) (x : Reg) (fn : Byte) : Word := op ++ regBits x ++ fn

/-- The word of an instruction, from the patterns of R76. -/
def encode (i : Instr) : Word :=
  match i with
  | .cls => 0x00E0#16
  | .ret => 0x00EE#16
  | .sys addr => encNNN 0x0#4 addr
  | .jp addr => encNNN 0x1#4 addr
  | .call addr => encNNN 0x2#4 addr
  | .seImm x kk => encXKK 0x3#4 x kk
  | .sneImm x kk => encXKK 0x4#4 x kk
  | .seReg x y => encXYN 0x5#4 x y 0x0#4
  | .ldImm x kk => encXKK 0x6#4 x kk
  | .addImm x kk => encXKK 0x7#4 x kk
  | .ldReg x y => encXYN 0x8#4 x y 0x0#4
  | .orReg x y => encXYN 0x8#4 x y 0x1#4
  | .andReg x y => encXYN 0x8#4 x y 0x2#4
  | .xorReg x y => encXYN 0x8#4 x y 0x3#4
  | .addReg x y => encXYN 0x8#4 x y 0x4#4
  | .sub x y => encXYN 0x8#4 x y 0x5#4
  | .shr x y => encXYN 0x8#4 x y 0x6#4
  | .subn x y => encXYN 0x8#4 x y 0x7#4
  | .shl x y => encXYN 0x8#4 x y 0xE#4
  | .sneReg x y => encXYN 0x9#4 x y 0x0#4
  | .ldI addr => encNNN 0xA#4 addr
  | .jpV0 addr => encNNN 0xB#4 addr
  | .rnd x kk => encXKK 0xC#4 x kk
  | .drw x y n => encXYN 0xD#4 x y n
  | .skp x => encX 0xE#4 x 0x9E#8
  | .sknp x => encX 0xE#4 x 0xA1#8
  | .ldVxDT x => encX 0xF#4 x 0x07#8
  | .ldVxK x => encX 0xF#4 x 0x0A#8
  | .ldDTVx x => encX 0xF#4 x 0x15#8
  | .ldSTVx x => encX 0xF#4 x 0x18#8
  | .addI x => encX 0xF#4 x 0x1E#8
  | .ldF x => encX 0xF#4 x 0x29#8
  | .ldB x => encX 0xF#4 x 0x33#8
  | .storeRegs x => encX 0xF#4 x 0x55#8
  | .loadRegs x => encX 0xF#4 x 0x65#8

end Sys2Proof
end

