-- ==== Sys2Proof/Config.lean ====
section
/-! DEFINITION. What is fixed for the machine: the sizes of 00_scope.md rule R7 that are parameters of the memory, the
value sets of its three policy parameters (this hardware's choice of each stands in Sys2Proof/Machine/Policy.lean), the
host's operations, and the two free values: the random bytes, and the operations of a host that never stops. -/

namespace Sys2Proof

/-- `MEM_SIZE` (R7): bytes of memory. -/
abbrev Config.memSize : Nat := 4096

/-- `PROG_START` (R7): where the program image is placed and where the first fetch is made. -/
abbrev Config.progStart : Nat := 0x200

/-- The values of `SYS_POLICY` (R7, R100). -/
inductive SysPolicy where
  | fault
  | nop
  deriving DecidableEq, Repr

/-- The values of `ROW_POLICY` (R7, R214). -/
inductive RowPolicy where
  | clip
  | wrap
  deriving DecidableEq, Repr

/-- The values of `VF_ORDER` (R7, R141). -/
inductive VfOrder where
  | flagLast
  | resultLast
  deriving DecidableEq, Repr

/-- FREE VALUE (assumption 3, safe). The byte the host's random source gives for the draw with this number (R286: any
byte, under no law). It has no body that a proof could use: a claim about it holds for every sequence of bytes. -/
opaque Config.randomByte : Nat → Byte

/-- The host's operations (R285). -/
inductive HostOp where
  | reset (image : List Byte)
  | cycle (r : Byte)
  | tick
  | setKey (k : Key)
  | clearKey
  | getKey
  | readFb
  | readST
  | readHalt
  deriving DecidableEq, Repr, Inhabited

/-- FREE VALUE (assumption 5, safe). The operation with this number of a host that goes on without end (R287: any
sequence of the operations, in any order and any number, between any two cycles; `Cycle(r)` is one of them). It has no
body that a proof could use: a claim about it holds for every endless sequence of operations. -/
opaque Config.hostOp : Nat → HostOp

end Sys2Proof
end

