-- ==== Sys2Proof/Machine/Policy.lean ====
section
/-! DEFINITION. This hardware's values of the spec's parameters (00_scope.md rule R7): the three policies and the font. -/

namespace Sys2Proof.Machine

/-- `SYS_POLICY = Fault` (R7, decision D3). UNVERIFIED (assumption 12). -/
def sysPolicy : SysPolicy := .fault

/-- `ROW_POLICY = Clip` (R7, decision D10, conflict C1). UNVERIFIED, unsafe (assumption 18). -/
def rowPolicy : RowPolicy := .clip

/-- `VF_ORDER = FlagLast` (R7, decision D9). UNVERIFIED, unsafe (assumption 17). -/
def vfOrder : VfOrder := .flagLast

/-- Glyphs `0` to `7` of the font table of R35, five bytes each. -/
def fontLow : List Byte :=
  [0xF0, 0x90, 0x90, 0x90, 0xF0] ++ [0x20, 0x60, 0x20, 0x20, 0x70] ++ [0xF0, 0x10, 0xF0, 0x80, 0xF0] ++
  [0xF0, 0x10, 0xF0, 0x10, 0xF0] ++ [0x90, 0x90, 0xF0, 0x10, 0x10] ++ [0xF0, 0x80, 0xF0, 0x10, 0xF0] ++
  [0xF0, 0x80, 0xF0, 0x90, 0xF0] ++ [0xF0, 0x10, 0x20, 0x40, 0x40]

/-- Glyphs `8` to `F` of the font table of R35. -/
def fontHigh : List Byte :=
  [0xF0, 0x90, 0xF0, 0x90, 0xF0] ++ [0xF0, 0x90, 0xF0, 0x10, 0xF0] ++ [0xF0, 0x90, 0xF0, 0x90, 0x90] ++
  [0xE0, 0x90, 0xE0, 0x90, 0xE0] ++ [0xF0, 0x80, 0x80, 0x80, 0xF0] ++ [0xE0, 0x90, 0x90, 0x90, 0xE0] ++
  [0xF0, 0x80, 0xF0, 0x80, 0xF0] ++ [0xF0, 0x80, 0xF0, 0x80, 0x80]

/-- `FONT_BYTES` (R7, R35, decision D17): the glyph of digit `d` lies at `5*d`. UNVERIFIED, unsafe (assumption 9). -/
def fontBytes : List Byte := fontLow ++ fontHigh

end Sys2Proof.Machine
end

