-- ==== Sys2Proof/Machine/State.lean ====
section
/-! DEFINITION. The state of the machine (10_state.md rule R20) as plain data, the reasons a step can stop, and the
state after reset (R44, R300). Besides the spec's items it holds four fields of the model's own: the host's pending
operations and what the host does after them, the last reply to the host, and the number of random draws made
(assumptions 3, 4, 5). -/

namespace Sys2Proof.Machine

/-- Memory as (address, byte) pairs, addresses strictly rising, no entry equal to the reset contents `Memory.initial` of
its address (Sys2Proof/Machine/Ops.lean has the form as `Memory.wf`). -/
abbrev Memory := List Host.Cell

/-- The framebuffer: 2048 cells, pixel (px, py) at index `px + py*64` (R36). -/
abbrev Frame := Vector Bool 2048

/-- The kind of a memory access (R53). -/
inductive AccessKind where
  | fetch
  | read
  | write
  deriving DecidableEq, Repr

/-- The core's own faults with their info (R270). A cycle that raises one is a cycle of the machine: it ends in a next
state that holds the fault in `halt` (R271; assumption 1). -/
inductive CoreFault where
  /-- code 1: a push at `sp = 16`; info: the `pc` of the `CALL` -/
  | stackOverflow (pc : Word)
  /-- code 2: a pop at `sp = 0`; info: the `pc` of the `RET` -/
  | stackUnderflow (pc : Word)
  /-- codes 3, 4, 5: an access at an address outside memory; info: the lowest such address -/
  | memoryOutOfBounds (kind : AccessKind) (addr : Nat)
  /-- code 6: `SYS` under `SYS_POLICY = Fault`; info: the word -/
  | unhandledInstruction (w : Word)
  deriving DecidableEq, Repr

/-- The halt record (R40, R272): the fault with its info, and the `pc` of the faulting instruction. -/
structure HaltRecord where
  fault : CoreFault
  pc : Word
  deriving DecidableEq, Repr

/-- What the host does once the operations pending in `State.host` have run (R287). -/
inductive Schedule where
  /-- it only calls for cycles, each with a free random byte (assumption 3) -/
  | cyclesOnly
  /-- it goes on without end, with the free operations `Config.hostOp n`, `Config.hostOp (n + 1)`, … (assumption 5) -/
  | free (n : Nat)
  deriving DecidableEq, Repr

/-- What an operation returns to the host (R92, R285). -/
inductive Reply where
  /-- nothing: after `Reset`, `Tick`, `SetKey` and `ClearKey` -/
  | none
  /-- `Done(changed)`: the cycle completed; `changed` is the framebuffer-changed output (R39, R92) -/
  | done (changed : Bool)
  /-- `Stalled` (R91, R92) -/
  | stalled
  /-- `Faulted(E, info)` (R92, R271) -/
  | faulted (f : CoreFault)
  /-- `Cycle` of a halted core: there is no cycle (R85, R274) -/
  | noCycle
  /-- `GetKey` -/
  | key (k : Option Key)
  /-- `ReadFb` -/
  | frame (fb : Frame)
  /-- `ReadST` -/
  | soundTimer (st : Byte)
  /-- `ReadHalt` -/
  | haltRecord (h : Option HaltRecord)
  deriving DecidableEq, Repr

/-- The whole state: the items of R20, then the model's own four fields. -/
structure State where
  /-- `mem` (R34, R50) -/
  mem : Memory
  /-- `V[0..15]` (R21) -/
  v : Vector Byte 16
  /-- `I` (R25) -/
  i : Word
  /-- `pc` (R27) -/
  pc : Word
  /-- `stack[0..15]`, `STACK_DEPTH` = 16 (R7, R29) -/
  stack : Vector Word 16
  /-- `sp`, 0 (empty) to 16 (full) (R30) -/
  sp : Fin 17
  /-- `DT` (R32) -/
  dt : Byte
  /-- `ST` (R33) -/
  st : Byte
  /-- `fb[0..2047]` (R36) -/
  fb : Frame
  /-- `latch` (R37): none is the spec's own `None`, no key latched -/
  latch : Option Key
  /-- `halt` (R40): none is the spec's own `None`, running -/
  halt : Option HaltRecord
  /-- MODEL'S OWN, DESIGN CHOICE, safe (assumption 4): the last operation's reply, with the cycle's `changed` output (R39, R92) -/
  reply : Reply
  /-- MODEL'S OWN, DESIGN CHOICE, safe (assumption 3): how many random bytes have been drawn -/
  draws : Nat
  /-- MODEL'S OWN, DESIGN CHOICE, safe (assumption 5): the host operations still to run, the next one first (R43, R285, R287) -/
  host : List HostOp
  /-- MODEL'S OWN, DESIGN CHOICE (assumption 5): what the host does after those (R287); safe where a claim is about every
  value, unsafe where it rests on the reset value -/
  schedule : Schedule
  deriving DecidableEq, Repr

/-- Why a step cannot be made. -/
inductive Fault where
  /-- Raised by `step` in a state whose `halt` holds a record, when the host has only cycles left to call for: the core is
  stopped for good and there is no cycle (R85, R274). Safe: the hardware makes no step there either. -/
  | halted (r : HaltRecord)
  deriving DecidableEq, Repr

/-- Why the machine has no run to go on with. -/
inductive Refusal where
  /-- An instruction without a meaning yet; raised by `exec`'s refused arms only, of which there are none. Safe. -/
  | notModelled (mnemonic : String)
  /-- Raised by a `Reset` whose image is longer than 3584 bytes: "`Reset` refuses such an image", and no run exists for it
  (R303). Safe: nothing is claimed of such a run. -/
  | imageTooLong (length : Nat)
  deriving DecidableEq, Repr

/-- The outcome of an instruction or of a step. -/
abbrev Result := Host.Outcome State Fault Refusal

/-- The machine right after reset (R44, R300), with no program image (an empty image is allowed, R303): memory lists
nothing, so it holds its reset contents. All but `pc` and memory rest on decision D16: UNVERIFIED, unsafe (assumption 8).
How a program comes to run: assumption 7. The host here only calls for cycles: for every host, `State.started`. -/
def State.reset : State :=
  { mem := []
    v := Vector.replicate 16 0#8
    i := 0#16
    pc := 0x200#16
    stack := Vector.replicate 16 0#16
    sp := 0
    dt := 0#8
    st := 0#8
    fb := Vector.replicate 2048 false
    latch := none
    halt := none
    reply := .none
    draws := 0
    host := []
    schedule := .cyclesOnly }

end Sys2Proof.Machine
end

