-- ==== Sys2Proof/Machine/Ops.lean ====
section
/-! DEFINITION. The named operations over memory, registers and stack, the ways a cycle ends (completed, stalled,
faulted), and the checks and the fetch of 20_memory.md. -/

namespace Sys2Proof.Machine

/-! ## Memory (R50 to R69) -/

/-- What an address that nothing has written reads as: the reset contents without an image (R44, R52), the font at
`0x000`–`0x04F` and zero everywhere else (assumptions 6, 9). -/
def Memory.initial (a : Nat) : Byte := if a < 80 then fontBytes.getD a 0 else 0

/-- The byte at an address (`MemRead`, R12, after its check): the listed one, else the reset contents (R60). -/
def Memory.read (m : Memory) (a : Nat) : Byte :=
  match m with
  | [] => Memory.initial a
  | (b, u) :: rest => if a = b then u else Memory.read rest a

/-- The list without the entries of an address. -/
def Memory.unlist (m : Memory) (a : Nat) : Memory := m.filter (fun c => c.1 ≠ a)

/-- The list with an entry put before the first entry of a greater address. -/
def Memory.enlist (m : Memory) (a : Nat) (b : Byte) : Memory :=
  match m with
  | [] => [(a, b)]
  | c :: rest => if a < c.1 then (a, b) :: c :: rest else c :: Memory.enlist rest a b

/-- The memory with a byte stored at an address (`MemWrite`, R12, after its check). Storing the reset contents removes the
entry. -/
def Memory.write (m : Memory) (a : Nat) (b : Byte) : Memory :=
  if b = Memory.initial a then m.unlist a else (m.unlist a).enlist a b

/-- The memory with bytes stored at rising addresses from `base` on, one byte access each, in increasing order (R58). -/
def Memory.writeList (m : Memory) (base : Nat) (bytes : List Byte) : Memory :=
  match bytes with
  | [] => m
  | b :: rest => (m.write base b).writeList (base + 1) rest

/-- Addresses strictly rise along the list. -/
def Memory.rising (m : Memory) : Bool :=
  match m with
  | [] => true
  | c :: rest => rest.all (fun d => c.1 < d.1) && Memory.rising rest

/-- The canonical form: addresses strictly rising, each in the address space, no entry that equals the reset contents. -/
def Memory.wf (m : Memory) : Bool :=
  m.rising && m.all (fun c => c.1 < Config.memSize && c.2 ≠ Memory.initial c.1)

/-- The lowest address outside memory among `base`, …, `base + count - 1`, if any: the check every access makes, on
addresses that are never reduced (R53, R54, assumption 15). -/
def firstOutside (base count : Nat) : Option Nat :=
  ((List.range count).map (fun k => base + k)).find? (fun a => Config.memSize ≤ a)

/-- `Fetch(pc)`, R55: the word at `pc`, big-endian (decision D1, UNVERIFIED, unsafe: assumption 10), at any `pc`, odd ones
included (R57, assumption 14), or the fault. -/
def State.fetch (s : State) : Except CoreFault Word :=
  match firstOutside s.pc.toNat 2 with
  | some a => .error (.memoryOutOfBounds .fetch a)
  | none => .ok (wordOfBytes (s.mem.read s.pc.toNat) (s.mem.read (s.pc.toNat + 1)))

/-! ## General registers (R21) -/

/-- `V[x]`. -/
def State.getV (s : State) (x : Reg) : Byte := s.v[x.val]

/-- `V[x] <- b`. No register is hard-wired (R21). -/
def State.setV (s : State) (x : Reg) (b : Byte) : State := { s with v := s.v.set x.val b }

/-! ## How a cycle ends (R85, R92) -/

/-- The cycle completes: `pc <- (pc_h + 2) mod 2^16` (R86, assumption 13), and `Done(changed)` is reported (R92). -/
def State.completed (s : State) (pcH : Word) (changed : Bool) : State :=
  { s with pc := pcH + 2#16, reply := .done changed }

/-- The cycle stalls: no state item changes, not even `pc`; `changed` is false (R91). -/
def State.stalled (s : State) : State := { s with reply := .stalled }

/-- TAKING A FAULT, the one operation for all of them (R271): every state item keeps the value it had at the start of the
cycle, `halt` takes the fault, its info and the `pc`, and `Faulted` is reported. There is no handler, no vector and no
return (R273, R274): only `Reset` clears `halt`. Decision D15: UNVERIFIED (assumption 1). -/
def State.faulted (s : State) (f : CoreFault) : State :=
  { s with halt := some ⟨f, s.pc⟩, reply := .faulted f }

/-- A completed cycle of a plain instruction: `pc_h = pc`, `changed` false (R28, R39). -/
def advance (s : State) : Result := .next (s.completed s.pc false)

/-- A completed cycle of a skip: taken, it leaves `pc_h = pc + 2` (R28). -/
def skipIf (taken : Bool) (s : State) : Result :=
  .next (s.completed (if taken then s.pc + 2#16 else s.pc) false)

/-- A completed cycle of a control transfer to `target`: the handler leaves `pc_h = target - 2`, mod `2^16` (R86). -/
def branch (target : Word) (s : State) : Result := .next (s.completed (target - 2#16) false)

/-- The cycle ends with a fault (`raise`, R13). -/
def raise (f : CoreFault) (s : State) : Result := .next (s.faulted f)

/-- The cycle ends with a stall (`stall`, R13). -/
def stall (s : State) : Result := .next s.stalled

/-- Run the rest of an instruction if `base`, …, `base + count - 1` are all in memory, else raise the fault of the lowest
one outside, before anything is written (R53, R59). -/
def checked (kind : AccessKind) (base count : Nat) (s : State) (rest : Result) : Result :=
  match firstOutside base count with
  | some a => raise (.memoryOutOfBounds kind a) s
  | none => rest

/-! ## The fault record (R270, R272) -/

/-- The numeric code of a fault, R270. -/
def CoreFault.code (f : CoreFault) : Nat :=
  match f with
  | .stackOverflow _ => 1
  | .stackUnderflow _ => 2
  | .memoryOutOfBounds .fetch _ => 3
  | .memoryOutOfBounds .read _ => 4
  | .memoryOutOfBounds .write _ => 5
  | .unhandledInstruction _ => 6

/-- The info a fault records, R270, as a number. -/
def CoreFault.info (f : CoreFault) : Nat :=
  match f with
  | .stackOverflow pc => pc.toNat
  | .stackUnderflow pc => pc.toNat
  | .memoryOutOfBounds _ a => a
  | .unhandledInstruction w => w.toNat

/-! ## The return stack (R29 to R31) -/

/-- A push: `stack[sp] <- w`, then `sp <- sp + 1`; none at `sp = 16` (R30). -/
def State.push (s : State) (w : Word) : Option State :=
  if h : s.sp.val < 16 then
    some { s with stack := s.stack.set s.sp.val w, sp := ⟨s.sp.val + 1, by omega⟩ }
  else none

/-- A pop: `sp <- sp - 1`, then the entry `stack[sp]`, which keeps its value (R30, R31); none at `sp = 0`. -/
def State.pop (s : State) : Option (Word × State) :=
  if h : 0 < s.sp.val then
    some (s.stack[s.sp.val - 1]'(by omega),
      { s with sp := ⟨s.sp.val - 1, by omega⟩ })
  else none

/-! ## The random byte (R286) -/

/-- The byte offered for this cycle: the host's, where the cycle is a pending `Cycle(r)`, else the free value of this
draw (assumption 3). -/
def State.randomByte (s : State) : Byte :=
  match s.host with
  | .cycle r :: _ => r
  | _ => Config.randomByte s.draws

end Sys2Proof.Machine
end

