-- ==== Sys2Proof/Machine/Operands.lean ====
section
/-! DEFINITION. The operand forms: how an instruction's fields and registers become values and addresses (R74, R186). -/

namespace Sys2Proof.Machine

/-- Absolute: `addr` as a 12-bit unsigned address, zero-extended to 16 bits (R74). -/
def absolute (addr : Addr12) : Word := addr.setWidth 16

/-- Register plus absolute: `V0 + addr`, not reduced to 12 bits (R108). -/
def registerPlusAbsolute (addr : Addr12) (s : State) : Word := (s.getV 0).setWidth 16 + absolute addr

/-- Index register indirect: the address `I + k` as an unbounded number (R54, R186). -/
def indexed (s : State) (k : Nat) : Nat := s.i.toNat + k

/-- The glyph address `V[x] * 5`, not masked (R182). -/
def glyphAddress (b : Byte) : Word := b.setWidth 16 * 5#16

/-- The decimal digits of a byte, hundreds first (R183). -/
def decimalDigits (b : Byte) : List Byte := [b / 100#8, b / 10#8 % 10#8, b % 10#8]

/-- The registers `V0` to `V[x]`, in order (R184). -/
def registersUpTo (x : Reg) (s : State) : List Byte := s.v.toList.take (x.val + 1)

/-- Registers 0 to `count - 1` loaded with the bytes at `base`, `base + 1`, …, in increasing order (R185). -/
def loadFrom (m : Memory) (base : Nat) (v : Vector Byte 16) (count : Nat) : Vector Byte 16 :=
  match count with
  | 0 => v
  | n + 1 => (loadFrom m base v n).setIfInBounds n (m.read (base + n))

/-- Whether the latched key equals a register's value (R240): false with no key latched, and for a value above 15. -/
def keyMatches (latch : Option Key) (b : Byte) : Bool :=
  match latch with
  | some k => k.setWidth 8 == b
  | none => false

end Sys2Proof.Machine
end

