-- ==== Sys2Proof/Machine/Flags.lean ====
section
/-! DEFINITION. The flag computations (R22, R140, R141, R148 to R152, R215): `VF` is the only flag. -/

namespace Sys2Proof.Machine

/-- The value of a flag in `VF`: 1 or 0 (R22). -/
def flagByte (flag : Bool) : Byte := if flag then 1#8 else 0#8

/-- The carry of `a + b`: the true sum exceeds 255 (R140, R148). -/
def carryOf (a b : Byte) : Bool := 255 < a.toNat + b.toNat

/-- No borrow in `a - b`: minuend ≥ subtrahend (R140, R149, R150). -/
def noBorrowOf (a b : Byte) : Bool := b.toNat ≤ a.toNat

/-- The bit a right shift by one shifts out (R151). -/
def lowBitOf (a : Byte) : Bool := a.getLsbD 0

/-- The bit a left shift by one shifts out (R152). -/
def highBitOf (a : Byte) : Bool := a.getLsbD 7

/-- Steps 3 and 4 of R141: the result to `V[x]` and the flag to `VF`, in the order the parameter `VF_ORDER` gives. The
operands were read before (steps 1 and 2). -/
def writeWithFlag (order : VfOrder) (x : Reg) (result : Byte) (flag : Bool) (s : State) : State :=
  match order with
  | .flagLast => (s.setV x result).setV vf (flagByte flag)
  | .resultLast => (s.setV vf (flagByte flag)).setV x result

end Sys2Proof.Machine
end

