-- ==== Sys2Proof/Machine/Alu.lean ====
section
/-! DEFINITION. Register loads, arithmetic, logic, shifts and random (41_alu.md). -/

namespace Sys2Proof.Machine

/-- `LD Vx, kk`, R142. -/
def execLdImm (x : Reg) (kk : Byte) (s : State) : Result := advance (s.setV x kk)

/-- `ADD Vx, kk`, R143: no flag, even on overflow. -/
def execAddImm (x : Reg) (kk : Byte) (s : State) : Result := advance (s.setV x (s.getV x + kk))

/-- `LD Vx, Vy`, R144. -/
def execLdReg (x y : Reg) (s : State) : Result := advance (s.setV x (s.getV y))

/-- `OR Vx, Vy`, R145. -/
def execOrReg (x y : Reg) (s : State) : Result := advance (s.setV x (s.getV x ||| s.getV y))

/-- `AND Vx, Vy`, R146. -/
def execAndReg (x y : Reg) (s : State) : Result := advance (s.setV x (s.getV x &&& s.getV y))

/-- `XOR Vx, Vy`, R147. -/
def execXorReg (x y : Reg) (s : State) : Result := advance (s.setV x (s.getV x ^^^ s.getV y))

/-- `ADD Vx, Vy`, R148. -/
def execAddReg (x y : Reg) (s : State) : Result :=
  let a := s.getV x
  let b := s.getV y
  advance (writeWithFlag vfOrder x (a + b) (carryOf a b) s)

/-- `SUB Vx, Vy`, R149. -/
def execSub (x y : Reg) (s : State) : Result :=
  let a := s.getV x
  let b := s.getV y
  advance (writeWithFlag vfOrder x (a - b) (noBorrowOf a b) s)

/-- `SUBN Vx, Vy`, R150. -/
def execSubn (x y : Reg) (s : State) : Result :=
  let a := s.getV x
  let b := s.getV y
  advance (writeWithFlag vfOrder x (b - a) (noBorrowOf b a) s)

/-- `SHR Vx {, Vy}`, R151: in place on `Vx`; the field `y` is ignored (R75). -/
def execShr (x : Reg) (s : State) : Result :=
  let a := s.getV x
  advance (writeWithFlag vfOrder x (a >>> 1) (lowBitOf a) s)

/-- `SHL Vx {, Vy}`, R152: in place on `Vx`; the field `y` is ignored (R75). -/
def execShl (x : Reg) (s : State) : Result :=
  let a := s.getV x
  advance (writeWithFlag vfOrder x (a <<< 1) (highBitOf a) s)

/-- `RND Vx, kk`, R153: the cycle's random byte masked. The draw is counted, so that the next one has a value of its
own (assumption 3). -/
def execRnd (x : Reg) (kk : Byte) (s : State) : Result :=
  advance { s.setV x (s.randomByte &&& kk) with draws := s.draws + 1 }

end Sys2Proof.Machine
end

