-- ==== Sys2Proof/Machine/ControlFlow.lean ====
section
/-! DEFINITION. Control transfer and skips (40_control_flow.md), and the no-op of an unknown word (R83). -/

namespace Sys2Proof.Machine

/-- `SYS addr`, R100: `addr` is ignored but for the word the fault records; the effect is `SYS_POLICY`'s. -/
def sysUnder (policy : SysPolicy) (addr : Addr12) (s : State) : Result :=
  match policy with
  | .fault => raise (.unhandledInstruction (encode (.sys addr))) s
  | .nop => advance s

/-- `SYS addr`, R100, under this hardware's policy. -/
def execSys (addr : Addr12) (s : State) : Result := sysUnder sysPolicy addr s

/-- `RET`, R101: the popped entry is the address of the `CALL`, so `pc_h` is it and the cycle adds 2. -/
def execRet (s : State) : Result :=
  match s.pop with
  | none => raise (.stackUnderflow s.pc) s
  | some (w, s') => .next (s'.completed w false)

/-- `JP addr`, R102. -/
def execJp (addr : Addr12) (s : State) : Result := branch (absolute addr) s

/-- `CALL addr`, R103: the pushed value is the address of the `CALL` itself. -/
def execCall (addr : Addr12) (s : State) : Result :=
  match s.push s.pc with
  | none => raise (.stackOverflow s.pc) s
  | some s' => branch (absolute addr) s'

/-- `SE Vx, kk`, R104. -/
def execSeImm (x : Reg) (kk : Byte) (s : State) : Result := skipIf (s.getV x == kk) s

/-- `SNE Vx, kk`, R105. -/
def execSneImm (x : Reg) (kk : Byte) (s : State) : Result := skipIf (s.getV x != kk) s

/-- `SE Vx, Vy`, R106. -/
def execSeReg (x y : Reg) (s : State) : Result := skipIf (s.getV x == s.getV y) s

/-- `SNE Vx, Vy`, R107. -/
def execSneReg (x y : Reg) (s : State) : Result := skipIf (s.getV x != s.getV y) s

/-- `JP V0, addr`, R108. -/
def execJpV0 (addr : Addr12) (s : State) : Result := branch (registerPlusAbsolute addr s) s

/-- An unknown word, R83: nothing is written and `pc` advances by 2. -/
def execUnknown (s : State) : Result := advance s

end Sys2Proof.Machine
end

