-- ==== Sys2Proof/Machine/Display.lean ====
section
/-! DEFINITION. The display: clear, and the sprite blitter (43_display.md). -/

namespace Sys2Proof.Machine

/-- Pixel (px, py) is the cell `fb[px + py*64]` (R36). -/
def cellIndex (px : Fin 64) (py : Fin 32) : Fin 2048 := ⟨px.val + py.val * 64, by omega⟩

/-- The horizontal coordinate of a sprite's column wraps: `(x0 + col) mod 64` (R213). -/
def columnTarget (x0 : Byte) (col : Nat) : Fin 64 := ⟨(x0.toNat + col) % 64, by omega⟩

/-- `RowTarget(t)`, R214: the screen row of a sprite's row, or none where it is not drawn. -/
def rowTarget (policy : RowPolicy) (t : Nat) : Option (Fin 32) :=
  match policy with
  | .clip => if h : t < 32 then some ⟨t, h⟩ else none
  | .wrap => some ⟨t % 32, by omega⟩

/-- The framebuffer a blit is working on, and whether a collision has been recorded (R212). -/
structure Blit where
  fb : Frame
  collided : Bool
  deriving DecidableEq, Repr

/-- A 1 bit lands on a cell: the cell is inverted; if it was on before, a collision is recorded (R215). -/
def toggleCell (k : Fin 2048) (acc : Blit) : Blit :=
  { fb := acc.fb.set k.val (!acc.fb[k.val]), collided := acc.collided || acc.fb[k.val] }

/-- The first `cols` pixel columns of a sprite's row `b` on screen row `py`, most significant bit first (R212). -/
def blitColumns (b : Byte) (x0 : Byte) (py : Fin 32) (cols : Nat) (acc : Blit) : Blit :=
  match cols with
  | 0 => acc
  | col + 1 =>
    let before := blitColumns b x0 py col acc
    if b.getLsbD (7 - col) then toggleCell (cellIndex (columnTarget x0 col) py) before else before

/-- The first `height` rows of the sprite whose bytes lie at `src` on, in increasing order (R212). No cell is toggled
twice (R217), since `columnTarget` takes eight columns to eight pixels and `rowTarget` fewer than 32 rows to different
ones, so each collision is with the cell of before. -/
def blitRows (policy : RowPolicy) (m : Memory) (x0 y0 : Byte) (src : Nat) (height : Nat) (acc : Blit) : Blit :=
  match height with
  | 0 => acc
  | row + 1 =>
    let before := blitRows policy m x0 y0 src row acc
    match rowTarget policy (y0.toNat + row) with
    | none => before
    | some py => blitColumns (m.read (src + row)) x0 py 8 before

/-- `Blit(x0, y0, height, src)`, R212. -/
def blit (policy : RowPolicy) (m : Memory) (x0 y0 : Byte) (height : Nat) (src : Nat) (fb : Frame) : Blit :=
  blitRows policy m x0 y0 src height { fb := fb, collided := false }

/-- `CLS`, R210: `VF` is not written (decision D27: UNVERIFIED, unsafe, assumption 24); `changed` is signalled (D12,
assumption 4). -/
def execCls (s : State) : Result :=
  .next ({ s with fb := Vector.replicate 2048 false }.completed s.pc true)

/-- `DRW Vx, Vy, n`, R211: every row is checked, drawn or not; the coordinates are read before `VF` is written; `VF` and
`changed` are written for every `n`. -/
def execDrw (x y : Reg) (n : Nibble) (s : State) : Result :=
  checked .read (indexed s 0) n.toNat s
    (let drawn := blit rowPolicy s.mem (s.getV x) (s.getV y) n.toNat (indexed s 0) s.fb
     .next (({ s with fb := drawn.fb }.setV vf (flagByte drawn.collided)).completed s.pc true))

end Sys2Proof.Machine
end

