-- ==== Sys2Proof/Machine/IndexMemory.lean ====
section
/-! DEFINITION. The index register and the memory transfers (42_index_memory.md). -/

namespace Sys2Proof.Machine

/-- `LD I, addr`, R180. -/
def execLdI (addr : Addr12) (s : State) : Result := advance { s with i := absolute addr }

/-- `ADD I, Vx`, R181: mod `2^16` (decision D8: UNVERIFIED, unsafe, assumption 16), no flag. -/
def execAddI (x : Reg) (s : State) : Result := advance { s with i := s.i + (s.getV x).setWidth 16 }

/-- `LD F, Vx`, R182. -/
def execLdF (x : Reg) (s : State) : Result := advance { s with i := glyphAddress (s.getV x) }

/-- `LD B, Vx`, R183: `I` is not changed. -/
def execLdB (x : Reg) (s : State) : Result :=
  checked .write (indexed s 0) 3 s
    (advance { s with mem := s.mem.writeList (indexed s 0) (decimalDigits (s.getV x)) })

/-- `LD [I], Vx`, R184: then `I <- I + x + 1`. -/
def execStoreRegs (x : Reg) (s : State) : Result :=
  checked .write (indexed s 0) (x.val + 1) s
    (advance { s with
      mem := s.mem.writeList (indexed s 0) (registersUpTo x s)
      i := BitVec.ofNat 16 (indexed s (x.val + 1)) })

/-- `LD Vx, [I]`, R185: then `I <- I + x + 1`. -/
def execLoadRegs (x : Reg) (s : State) : Result :=
  checked .read (indexed s 0) (x.val + 1) s
    (advance { s with
      v := loadFrom s.mem (indexed s 0) s.v (x.val + 1)
      i := BitVec.ofNat 16 (indexed s (x.val + 1)) })

end Sys2Proof.Machine
end

