-- ==== Sys2Proof/Machine/InputTimers.lean ====
section
/-! DEFINITION. Key input and timer instructions (44_input_timers.md). -/

namespace Sys2Proof.Machine

/-- `SKP Vx`, R240: the latch is read, not consumed (decision D13: UNVERIFIED, unsafe, assumption 19). -/
def execSkp (x : Reg) (s : State) : Result := skipIf (keyMatches s.latch (s.getV x)) s

/-- `SKNP Vx`, R241: skips with no key latched too. -/
def execSknp (x : Reg) (s : State) : Result := skipIf (!keyMatches s.latch (s.getV x)) s

/-- `LD Vx, DT`, R242. -/
def execLdVxDT (x : Reg) (s : State) : Result := advance (s.setV x s.dt)

/-- `LD Vx, K`, R243: a stall while no key is latched, else the key is taken and the latch cleared. -/
def execLdVxK (x : Reg) (s : State) : Result :=
  match s.latch with
  | none => stall s
  | some k => advance { s.setV x (k.setWidth 8) with latch := none }

/-- `LD DT, Vx`, R244. -/
def execLdDTVx (x : Reg) (s : State) : Result := advance { s with dt := s.getV x }

/-- `LD ST, Vx`, R245. -/
def execLdSTVx (x : Reg) (s : State) : Result := advance { s with st := s.getV x }

end Sys2Proof.Machine
end

