-- ==== Sys2Proof/Machine/HostPort.lean ====
section
/-! DEFINITION. The host interface (60_exceptions.md rules R280 to R287): the host's operations but for `Cycle`, which
Sys2Proof/Machine/Cycle.lean has. -/

namespace Sys2Proof.Machine

/-- A timer after one tick: one less, floored at 0 (R280). -/
def ticked (t : Byte) : Byte := if 0#8 < t then t - 1#8 else 0#8

/-- `Tick()`, R280. -/
def State.tick (s : State) : State := { s with dt := ticked s.dt, st := ticked s.st }

/-- `SetKey(k)`, R285: a key latched before is overwritten. -/
def State.setKey (s : State) (k : Key) : State := { s with latch := some k }

/-- `ClearKey()`, R285. -/
def State.clearKey (s : State) : State := { s with latch := none }

/-- `GetKey()`, R285. -/
def State.readKey (s : State) : Option Key := s.latch

/-- `ReadFb()`, R283, R285: the read-only framebuffer port. -/
def State.readFb (s : State) : Frame := s.fb

/-- `ReadST()`, R282, R285. -/
def State.readST (s : State) : Byte := s.st

/-- `ReadHalt()`, R285. -/
def State.readHalt (s : State) : Option HaltRecord := s.halt

/-- The framebuffer-changed output of the last operation: true after a cycle that executed `CLS` or `DRW` (R39). -/
def State.changed (s : State) : Bool := s.reply == .done true

/-- The longest program image that fits, 3584 bytes (R303). -/
def maxImage : Nat := Config.memSize - Config.progStart

/-- The state `Reset(image)` sets (R300): the reset state with the image at `0x200` (R302). -/
def State.resetWith (image : List Byte) : State :=
  { State.reset with mem := Memory.writeList [] Config.progStart image }

/-- The machine after `Reset(image)` with this host: the operations it does first, and what it does after them. A claim
about a program that is to hold in every run R287 admits is about every `host` and `schedule` here (assumption 5). -/
def State.started (image : List Byte) (host : List HostOp) (schedule : Schedule) : State :=
  { State.resetWith image with host := host, schedule := schedule }

/-- `Reset(image)`: refused for an image that does not fit (R303). The operations the host has still to run are the
host's, not the machine's, and stay (`host`, `schedule`); so does the count of draws, that no random byte comes twice
(assumptions 3, 5). -/
def hostReset (image : List Byte) (s : State) : Result :=
  if image.length ≤ maxImage then
    .next { State.resetWith image with host := s.host, schedule := s.schedule, draws := s.draws }
  else .refused (.imageTooLong image.length)

/-- A reply to the host, nothing else changed. -/
def State.replied (s : State) (r : Reply) : State := { s with reply := r }

end Sys2Proof.Machine
end

