-- ==== Sys2Proof/Machine/Cycle.lean ====
section
/-! DEFINITION. The cycle (30_encoding.md rule R85), the order of host operations and cycles (R287), and the placing of a
word where the next cycle fetches it. Sys2Proof/Machine/Step.lean only calls what stands here. -/

namespace Sys2Proof.Machine

/-- One cycle of a core that has not halted, R85: fetch, resolve, decode, execute; each handler ends the cycle. -/
def cycle (s : State) : Result :=
  match s.fetch with
  | .error f => raise f s
  | .ok w =>
    match decodeWord w with
    | some i => exec i s
    | none => execUnknown s

/-- Awaiting input, derived and not stored (R38): the word at `pc` is `LD Vx, K` and no key is latched. -/
def awaitingInput (s : State) : Bool :=
  match s.fetch with
  | .ok w => resolve w == some .ldVxK && s.latch.isNone
  | .error _ => false

/-- A result whose next state is changed. -/
def mapNext (f : State → State) (r : Result) : Result :=
  match r with
  | .next s => .next (f s)
  | .fault e => .fault e
  | .refused e => .refused e

/-- The host operation `op` on a state whose `host` holds what comes after it. -/
def hostStep (op : HostOp) (s : State) : Result :=
  match op with
  | .reset image => hostReset image s
  | .cycle r =>
    match s.halt with
    | some _ => .next (s.replied .noCycle)
    -- the byte offered is the operation's r (`State.randomByte` reads it there)
    | none => mapNext (fun t => { t with host := s.host }) (cycle { s with host := .cycle r :: s.host })
  | .tick => .next (s.tick.replied .none)
  | .setKey k => .next ((s.setKey k).replied .none)
  | .clearKey => .next (s.clearKey.replied .none)
  | .getKey => .next (s.replied (.key s.readKey))
  | .readFb => .next (s.replied (.frame s.readFb))
  | .readST => .next (s.replied (.soundTimer s.readST))
  | .readHalt => .next (s.replied (.haltRecord s.readHalt))

/-- One step (R287): the next pending host operation; with none pending, the next operation of a host that goes on
without end, or the core's next cycle, of which a halted core has none (R274). -/
def nextStep (s : State) : Result :=
  match s.host with
  | op :: rest => hostStep op { s with host := rest }
  | [] =>
    match s.schedule with
    | .free n => hostStep (Config.hostOp n) { s with schedule := .free (n + 1) }
    | .cyclesOnly =>
      match s.halt with
      | some r => .fault (.halted r)
      | none => cycle s

/-- The state with the word of the `nbits` bits `w` at `pc`, high byte first (R55), the host only calling for cycles and the
core running, so that the next step fetches and runs it; where `pc` and `pc + 1` are not both in memory nothing can be
placed. -/
def placeWord (s : State) (nbits w : Nat) : State :=
  match firstOutside s.pc.toNat 2 with
  | some _ => s
  | none =>
    { s with
      mem := s.mem.writeList s.pc.toNat (wordBytes (BitVec.ofNat 16 (w % 2 ^ nbits)))
      halt := none
      host := []
      schedule := .cyclesOnly }

end Sys2Proof.Machine
end

