-- ==== Sys2Proof/Machine/Step.lean ====
section
/-! DEFINITION. The step and the placing of a word for it, under the names the host uses. -/

namespace Sys2Proof.Machine

/-- One step of the machine: a pending host operation or a cycle (R85, R285, R287). -/
def step (s : State) : Host.Outcome State Fault Refusal := nextStep s

/-- The state with an instruction word stored where `step` fetches its next instruction. -/
def State.withFetchWord (s : State) (nbits w : Nat) : State := placeWord s nbits w

end Sys2Proof.Machine
end

