-- ==== Sys2Proof/Safety.lean ====
section
/-! DEFINITION. The terms the claims use: the items of the state, what an instruction may write, how an instruction
completes, and the invariant of a run. -/

namespace Sys2Proof.Machine

/-- Two states agree on every item the spec gives the machine (R20); the model's own four fields may differ. -/
def SameItems (s t : State) : Prop :=
  t.mem = s.mem ∧ t.v = s.v ∧ t.i = s.i ∧ t.pc = s.pc ∧ t.stack = s.stack ∧ t.sp = s.sp ∧ t.dt = s.dt ∧ t.st = s.st ∧
  t.fb = s.fb ∧ t.latch = s.latch ∧ t.halt = s.halt

/-- What an instruction may write, besides `pc` and the reply of its cycle. -/
structure Footprint where
  /-- general registers -/
  regs : List Reg := []
  /-- addresses of memory bytes -/
  bytes : List Nat := []
  /-- `I` -/
  index : Bool := false
  /-- indexes of stack entries -/
  entries : List Nat := []
  /-- `sp` -/
  depth : Bool := false
  /-- `DT` -/
  delay : Bool := false
  /-- `ST` -/
  sound : Bool := false
  /-- `fb` -/
  screen : Bool := false
  /-- `latch` -/
  latch : Bool := false
  /-- `halt` -/
  halt : Bool := false
  /-- the model's count of random draws -/
  draws : Bool := false
  deriving DecidableEq, Repr

/-- The frame: everything outside the footprint is as it was. Memory is compared by its reads, byte by byte. -/
def KeepsBut (f : Footprint) (s t : State) : Prop :=
  (∀ j : Reg, j ∉ f.regs → t.getV j = s.getV j) ∧
  (∀ a : Nat, a ∉ f.bytes → t.mem.read a = s.mem.read a) ∧
  (f.index = false → t.i = s.i) ∧
  (∀ j : Fin 16, j.val ∉ f.entries → t.stack[j.val] = s.stack[j.val]) ∧
  (f.depth = false → t.sp = s.sp) ∧
  (f.delay = false → t.dt = s.dt) ∧
  (f.sound = false → t.st = s.st) ∧
  (f.screen = false → ∀ k : Fin 2048, t.fb[k.val] = s.fb[k.val]) ∧
  (f.latch = false → t.latch = s.latch) ∧
  (f.halt = false → t.halt = s.halt) ∧
  (f.draws = false → t.draws = s.draws) ∧
  t.host = s.host ∧ t.schedule = s.schedule

/-- `count` addresses from `I` on (R186), as the meanings compute them. -/
def addressesFromI (s : State) (count : Nat) : List Nat := (List.range count).map (indexed s)

/-- The registers `V0` to `V[x]`. -/
def regsUpTo (x : Reg) : List Reg := (List.finRange 16).filter (fun j => j ≤ x)

/-- What each instruction may write, faults included: the registers of R24 and R22, `I` as in R26, memory as in R51, the
stack as in R29, the timers as in R32 and R33, the framebuffer as in R36, the latch as in R246, `halt` as in R270. -/
def mayWrite (i : Instr) (s : State) : Footprint :=
  match i with
  | .cls => { screen := true }
  | .ret => { depth := true, halt := true }
  | .sys _ => { halt := true }
  | .jp _ => {}
  | .call _ => { entries := [s.sp.val], depth := true, halt := true }
  | .seImm _ _ | .sneImm _ _ | .seReg _ _ | .sneReg _ _ => {}
  | .ldImm x _ | .addImm x _ => { regs := [x] }
  | .ldReg x _ | .orReg x _ | .andReg x _ | .xorReg x _ => { regs := [x] }
  | .addReg x _ | .sub x _ | .shr x _ | .subn x _ | .shl x _ => { regs := [x, vf] }
  | .ldI _ => { index := true }
  | .jpV0 _ => {}
  | .rnd x _ => { regs := [x], draws := true }
  | .drw _ _ _ => { regs := [vf], screen := true, halt := true }
  | .skp _ | .sknp _ => {}
  | .ldVxDT x => { regs := [x] }
  | .ldVxK x => { regs := [x], latch := true }
  | .ldDTVx _ => { delay := true }
  | .ldSTVx _ => { sound := true }
  | .addI _ | .ldF _ => { index := true }
  | .ldB _ => { bytes := addressesFromI s 3, halt := true }
  | .storeRegs x => { bytes := addressesFromI s (x.val + 1), index := true, halt := true }
  | .loadRegs x => { regs := regsUpTo x, index := true, halt := true }

/-- The instruction's cycle completes, from this state: `exec` answers a next state, with `pc` at `pc'`, `Done(changed)`
reported, all outside the footprint kept, and `post` true of it. -/
def Completes (i : Instr) (s : State) (pc' : Word) (changed : Bool) (f : Footprint) (post : State → Prop) : Prop :=
  ∃ t, exec i s = .next t ∧ t.pc = pc' ∧ t.reply = .done changed ∧ KeepsBut f s t ∧ post t

/-- The instruction's cycle ends in a fault, from this state: `halt` takes the fault and the `pc`, `Faulted` is reported,
and no other item changes (R271). -/
def Traps (i : Instr) (s : State) (f : CoreFault) : Prop :=
  ∃ t, exec i s = .next t ∧ t.halt = some ⟨f, s.pc⟩ ∧ t.reply = .faulted f ∧ SameItems s { t with halt := s.halt } ∧
    t.draws = s.draws ∧ t.host = s.host ∧ t.schedule = s.schedule

/-- `I + k` is the lowest of the addresses `I`, `I + 1`, … that is outside memory (R53, R54). -/
def LowestOutside (s : State) (k : Nat) : Prop :=
  Config.memSize ≤ indexed s k ∧ ∀ j, j < k → indexed s j < Config.memSize

/-- The words that decode to the instruction their fields give are exactly those with this pattern under this mask. -/
def EncodedBy (mask pattern : Word) (build : Fields → Instr) : Prop :=
  ∀ w : Word, decodeWord w = some (build (fieldsOf w)) ↔ w &&& mask = pattern

/-- The instructions of 41_alu.md. -/
def isAlu (i : Instr) : Bool :=
  match i with
  | .ldImm _ _ | .addImm _ _ | .ldReg _ _ | .orReg _ _ | .andReg _ _ | .xorReg _ _ | .addReg _ _ | .sub _ _ | .shr _ _
  | .subn _ _ | .shl _ _ | .rnd _ _ => true
  | .cls | .ret | .sys _ | .jp _ | .call _ | .seImm _ _ | .sneImm _ _ | .seReg _ _ | .sneReg _ _ | .ldI _ | .jpV0 _
  | .drw _ _ _ | .skp _ | .sknp _ | .ldVxDT _ | .ldVxK _ | .ldDTVx _ | .ldSTVx _ | .addI _ | .ldF _ | .ldB _
  | .storeRegs _ | .loadRegs _ => false

/-- A drawn 1 bit of the sprite of `DRW Vx, Vy, n` lands on the pixel (px, py): some row's byte `mem[I + row]` has bit
`7 - col` set, the column lands at `(V[x] + col) mod 64` (R213), and the row at `V[y] + row`, which is on the screen
(R214 under `Clip`). -/
def Lands (x y : Reg) (n : Nibble) (s : State) (px : Fin 64) (py : Fin 32) : Prop :=
  ∃ row col : Nat, row < n.toNat ∧ col < 8 ∧ (s.mem.read (indexed s row)).getLsbD (7 - col) = true ∧
    px.val = ((s.getV x).toNat + col) % 64 ∧ py.val = (s.getV y).toNat + row

/-- The cell of the pixel (px, py), at index `px + py*64` (R36). -/
def pixel (s : State) (px : Fin 64) (py : Fin 32) : Bool := s.fb[(cellIndex px py).val]

/-- The host has nothing pending and only calls for cycles, so that the next step is a cycle unless the core has halted. -/
def State.cyclesNext (s : State) : Prop := s.host = [] ∧ s.schedule = .cyclesOnly

/-- In this state of a core that has not halted, a cycle answers `t`, and so does the step in both forms in which a step can be a cycle: the host
only calls for cycles, or `Cycle(r)` is the next pending operation, which is then no longer pending. (A host that goes on
without end comes to the second form, `Obligations.TheHostMayRunAnySequence`.) -/
def CycleAnswers (s t : State) : Prop :=
  cycle s = .next t ∧
  (s.cyclesNext → step s = .next t) ∧
  (∀ r rest, s.host = .cycle r :: rest → step s = .next { t with host := rest })

/-- A halt record says what can have happened (R270, R271): it names the `pc` the core stopped at, and its info is that
`pc`, an address outside memory, or a word of the form `0nnn`. -/
def HaltRecord.Sound (r : HaltRecord) (pc : Word) : Prop :=
  r.pc = pc ∧
  match r.fault with
  | .stackOverflow p => p = pc
  | .stackUnderflow p => p = pc
  | .memoryOutOfBounds _ a => Config.memSize ≤ a
  | .unhandledInstruction w => w.toNat < 0x1000

/-- The invariant of a run: memory is in its canonical form; every `pc` is at most `0x10FE` (R109); each stack entry below
`sp` is an address a `CALL` can have been fetched from (R31); a halt record is sound. -/
structure Inv (s : State) : Prop where
  memory : s.mem.wf = true
  pcBound : s.pc.toNat ≤ 0x10FE
  stackBound : ∀ j : Fin 16, j.val < s.sp.val → s.stack[j.val].toNat ≤ 0xFFE
  haltSound : ∀ r, s.halt = some r → r.Sound s.pc

end Sys2Proof.Machine
end

