-- ==== Sys2Proof/Certificates/Slice0/Obligations.lean ====
section
/-! DEFINITION. The statements for the provers, in the order of OBLIGATIONS.json. Their vocabulary (`Completes`, `Traps`,
`KeepsBut`, `SameItems`, `EncodedBy`, `mayWrite`, `Inv`) is in Sys2Proof/Safety.lean. -/

open Sys2Proof Sys2Proof.Machine

/-! ## Encoding and decoding -/

/-- Decoding undoes encoding, bytes included, for every instruction some word stands for, every operand at every value
(R70, R72, R76). The patterns of R76 are the spec's own supply (decision D2), the byte order is decision D1. -/
def Obligations.DecodeInvertsEncode : Prop :=
  ∀ i : Instr, i.wellFormed = true → decodeBytes (wordBytes (encode i)) = .ok (i, [])

/-- Encoding undoes decoding: each word that is an instruction is the one word of a well-formed instruction (R73, R77). -/
def Obligations.EncodeInvertsDecode : Prop :=
  ∀ (w : Word) (i : Instr), decodeWord w = some i → i.wellFormed = true ∧ encode i = w

/-- The fields of a word are its bits at the positions R72 gives, as unsigned numbers. -/
def Obligations.FieldsAreTheBitPositions : Prop :=
  ∀ w : Word,
    (fieldsOf w).addr.toNat = w.toNat % 4096 ∧ (fieldsOf w).nibble.toNat = w.toNat % 16 ∧
    (fieldsOf w).x.val = w.toNat / 256 % 16 ∧ (fieldsOf w).y.val = w.toNat / 16 % 16 ∧
    (fieldsOf w).kk.toNat = w.toNat % 256

/-- The ordering invariant of R78 (derived there): two entries of the table that cover one word are the same entry, or one
is `SYS` and the other `CLS` or `RET`, of which the word is the exact pattern. -/
def Obligations.TableEntriesOverlapOnlyAtSys : Prop :=
  ∀ r ∈ table, ∀ q ∈ table, ∀ w : Word, r.covers w = true → q.covers w = true → r ≠ q →
    (w = 0x00E0#16 ∧ (r.kind = .cls ∧ q.kind = .sys ∨ r.kind = .sys ∧ q.kind = .cls)) ∨
    (w = 0x00EE#16 ∧ (r.kind = .ret ∧ q.kind = .sys ∨ r.kind = .sys ∧ q.kind = .ret))

/-- The unknown words of R82 (derived there): the five classes and no others. -/
def Obligations.UnknownWordsAreTheFiveClasses : Prop :=
  ∀ w : Word, decodeWord w = none ↔
    (w.toNat / 4096 = 5 ∧ w.toNat % 16 ≠ 0) ∨
    (w.toNat / 4096 = 8 ∧ w.toNat % 16 ∈ [8, 9, 0xA, 0xB, 0xC, 0xD, 0xF]) ∨
    (w.toNat / 4096 = 9 ∧ w.toNat % 16 ≠ 0) ∨
    (w.toNat / 4096 = 0xE ∧ w.toNat % 256 ∉ [0x9E, 0xA1]) ∨
    (w.toNat / 4096 = 0xF ∧ w.toNat % 256 ∉ [0x07, 0x0A, 0x15, 0x18, 0x1E, 0x29, 0x33, 0x55, 0x65])

/-- A few words, one or more of each family, written out from the encodings of R76 and the source's own examples (R72:
`0x42FC`; R142: `0x6100`; R180: `0xA2D8`). A sanity statement. -/
def Obligations.SampleWordsDecode : Prop :=
  decodeWord 0x00E0#16 = some .cls ∧ decodeWord 0x00EE#16 = some .ret ∧ decodeWord 0x0123#16 = some (.sys 0x123#12) ∧
  decodeWord 0x42FC#16 = some (.sneImm 2 0xFC#8) ∧ decodeWord 0x6100#16 = some (.ldImm 1 0x00#8) ∧
  decodeWord 0x8124#16 = some (.addReg 1 2) ∧ decodeWord 0xA2D8#16 = some (.ldI 0x2D8#12) ∧
  decodeWord 0xD123#16 = some (.drw 1 2 3#4) ∧ decodeWord 0xE29E#16 = some (.skp 2) ∧
  decodeWord 0xFF65#16 = some (.loadRegs 15) ∧ decodeWord 0x5121#16 = none

/-! ## The cycle and the step -/

/-- A step runs the decoded instruction (R85): with the host only calling for cycles it is `exec` of it and nothing around
it; for a pending `Cycle(r)` the operation is then no longer pending (assumption 5). The instruction is well-formed. -/
def Obligations.StepRunsTheDecodedInstruction : Prop :=
  ∀ (s : State) (i : Instr), s.halt = none → s.pc.toNat + 1 < Config.memSize →
    decodeBytes [s.mem.read s.pc.toNat, s.mem.read (s.pc.toNat + 1)] = .ok (i, []) →
    i.wellFormed = true ∧
    (s.cyclesNext → step s = exec i s) ∧
    (∀ r rest, s.host = .cycle r :: rest → step s = mapNext (fun t => { t with host := rest }) (exec i s))

/-- An unknown word executes as a no-op (R83): nothing is written, `pc` advances by 2, no fault, `changed` false; as the
next cycle and as a pending `Cycle(r)`. -/
def Obligations.UnknownWordIsANoOp : Prop :=
  ∀ s : State, s.halt = none → s.pc.toNat + 1 < Config.memSize →
    decodeWord (wordOfBytes (s.mem.read s.pc.toNat) (s.mem.read (s.pc.toNat + 1))) = none →
    ∃ t, CycleAnswers s t ∧ t.pc = s.pc + 2#16 ∧ t.reply = .done false ∧ t.changed = false ∧ KeepsBut {} s t

/-- A fetch that needs an address outside memory halts the core with the first such address, nothing else changed (R55,
R275; that nothing else changes is decision D15), as the next cycle and as a pending `Cycle(r)`. -/
def Obligations.FetchOutsideMemoryHalts : Prop :=
  ∀ s : State, s.halt = none → Config.memSize ≤ s.pc.toNat + 1 →
    ∃ t a, CycleAnswers s t ∧ (a = s.pc.toNat ∨ a = s.pc.toNat + 1) ∧ Config.memSize ≤ a ∧
      (a = s.pc.toNat + 1 → s.pc.toNat < Config.memSize) ∧
      t.halt = some ⟨.memoryOutOfBounds .fetch a, s.pc⟩ ∧ t.reply = .faulted (.memoryOutOfBounds .fetch a) ∧
      SameItems s { t with halt := s.halt }

/-- A cycle has one of three outcomes (R92). -/
def Obligations.CycleEndsInOneOfThreeOutcomes : Prop :=
  ∀ s : State, s.halt = none → ∃ t, cycle s = .next t ∧
    ((∃ c, t.reply = .done c ∧ t.halt = none) ∨
     (t.reply = .stalled ∧ SameItems s t) ∨
     (∃ f, t.reply = .faulted f ∧ t.halt = some ⟨f, s.pc⟩))

/-- Only `LD Vx, K` stalls, and only while no key is latched; a stall changes no state item, `changed` is false, and the
next fetch gives the same (R91). -/
def Obligations.OnlyTheKeyWaitStalls : Prop :=
  ∀ (i : Instr) (s t : State), exec i s = .next t →
    (t.reply = .stalled ↔ (∃ x, i = .ldVxK x) ∧ s.latch = none) ∧
    (t.reply = .stalled → SameItems s t ∧ t.changed = false ∧ t.fetch = s.fetch)

/-- A faulting instruction leaves everything as it was but for `halt`, which names it (R271, R273; that nothing else
changes is the spec's decision D15). -/
def Obligations.FaultsArePrecise : Prop :=
  ∀ (i : Instr) (s t : State) (f : CoreFault), exec i s = .next t → t.reply = .faulted f →
    t.halt = some ⟨f, s.pc⟩ ∧ SameItems s { t with halt := s.halt } ∧ t.draws = s.draws ∧ t.host = s.host

/-- Which instruction raises which fault, and when (R270, R275, derived there): every fault of an instruction is one of
its row of R270, with that row's info; the address of a memory fault is the instruction's own lowest one outside. -/
def Obligations.FaultsComeFromTheirInstructions : Prop :=
  ∀ (i : Instr) (s t : State) (f : CoreFault), exec i s = .next t → t.reply = .faulted f →
    (f.code = 1 ∧ (∃ a, i = .call a) ∧ s.sp = 16 ∧ f = .stackOverflow s.pc) ∨
    (f.code = 2 ∧ i = .ret ∧ s.sp = 0 ∧ f = .stackUnderflow s.pc) ∨
    (f.code = 4 ∧ ∃ k, ((∃ x y n, i = .drw x y n ∧ k < n.toNat) ∨ (∃ x, i = .loadRegs x ∧ k ≤ x.val)) ∧
      LowestOutside s k ∧ f = .memoryOutOfBounds .read (indexed s k)) ∨
    (f.code = 5 ∧ ∃ k, (((∃ x, i = .ldB x) ∧ k < 3) ∨ (∃ x, i = .storeRegs x ∧ k ≤ x.val)) ∧
      LowestOutside s k ∧ f = .memoryOutOfBounds .write (indexed s k)) ∨
    (f.code = 6 ∧ ∃ addr, i = .sys addr ∧ f = .unhandledInstruction (encode i))

/-- `changed` is true after a cycle that executed `CLS` or `DRW`, and after no other (R39, decision D12). -/
def Obligations.ChangedOnlyAfterClsAndDrw : Prop :=
  ∀ (i : Instr) (s t : State), exec i s = .next t →
    (t.changed = true ↔ (i = .cls ∨ ∃ x y n, i = .drw x y n) ∧ ∀ f, t.reply ≠ .faulted f)

/-- A cycle's results depend only on the state's items and the random byte, and on the byte only where the word is `RND`
(R93). -/
def Obligations.RandomByteReachesOnlyRnd : Prop :=
  ∀ s u : State, SameItems s u →
    (s.randomByte = u.randomByte ∨ ∀ w x kk, s.fetch = .ok w → decodeWord w ≠ some (.rnd x kk)) →
    ∃ t v, cycle s = .next t ∧ cycle u = .next v ∧ SameItems t v ∧ v.reply = t.reply

/-- Every instruction keeps all the state it is not said to write: each register, each byte of memory, `I`, each stack
entry, `sp`, the timers, each framebuffer cell, the latch, `halt` (R24, R26, R51, R68 and the rules `mayWrite` names). -/
def Obligations.InstructionsKeepAllButTheirFootprint : Prop :=
  ∀ (i : Instr) (s t : State), exec i s = .next t → KeepsBut (mayWrite i s) s t

/-! ## The invariant -/

/-- Every step keeps the invariant, host operations and faults included: memory stays in its canonical form inside the
address space, `pc` stays at most `0x10FE` (R109), each stack entry in use stays an address a `CALL` can stand at, and a
halt record stays sound. -/
def Obligations.StepKeepsTheInvariant : Prop :=
  ∀ s t : State, Inv s → step s = .next t → Inv t

/-- The state after reset meets the invariant. -/
def Obligations.ResetMeetsTheInvariant : Prop := Inv State.reset

/-! ## Control transfer and skips -/

/-- `SYS addr` under this hardware's `SYS_POLICY = Fault` (R100, the spec's decision D3): every such word halts the core
with the word as info, `pc` kept; a word of the form `0nnn` is `SYS` unless it is `CLS`'s or `RET`'s. -/
def Obligations.SysHaltsTheCore : Prop :=
  (∀ w : Word, decodeWord w = some (.sys (fieldsOf w).addr) ↔
    w &&& 0xF000#16 = 0x0000#16 ∧ w ≠ 0x00E0#16 ∧ w ≠ 0x00EE#16) ∧
  ∀ (addr : Addr12) (s : State), ∃ w : Word, w.toNat = addr.toNat ∧ Traps (.sys addr) s (.unhandledInstruction w)

/-- `RET` (R101): `pc` becomes the popped entry plus 2 and the depth falls by one, no stack entry changing (decision D26 for
those at or above `sp`); on an empty stack the core halts with `StackUnderflow(pc)`, nothing else changed (D15). -/
def Obligations.RetGoesTwoPastThePoppedEntry : Prop :=
  EncodedBy 0xFFFF#16 0x00EE#16 (fun _ => .ret) ∧
  (∀ (s : State) (d : Nat) (h : d < 16), s.sp.val = d + 1 →
    Completes .ret s (s.stack[d] + 2#16) false { depth := true } (fun t => t.sp.val = d)) ∧
  (∀ s : State, s.sp = 0 → Traps .ret s (.stackUnderflow s.pc))

/-- `JP addr` (R102): `pc` becomes `addr`, also for `0x000` and `0x001`, where the subtraction wraps (decision D5). -/
def Obligations.JpGoesToItsTarget : Prop :=
  EncodedBy 0xF000#16 0x1000#16 (fun f => .jp f.addr) ∧
  ∀ (addr : Addr12) (s : State), ∃ pc' : Word, pc'.toNat = addr.toNat ∧
    Completes (.jp addr) s pc' false {} (fun _ => True)

/-- `CALL addr` (R103): the address of the `CALL` is pushed, the depth rises by one, `pc` becomes `addr` (that it pushes its
own address, and that `0x000` and `0x001` are reached, is decision D5); on a full stack the core halts with
`StackOverflow(pc)`, nothing else changed (D15). -/
def Obligations.CallPushesItsOwnAddress : Prop :=
  EncodedBy 0xF000#16 0x2000#16 (fun f => .call f.addr) ∧
  (∀ (addr : Addr12) (s : State) (h : s.sp.val < 16), ∃ pc' : Word, pc'.toNat = addr.toNat ∧
    Completes (.call addr) s pc' false { entries := [s.sp.val], depth := true }
      (fun t => t.stack[s.sp.val] = s.pc ∧ t.sp.val = s.sp.val + 1)) ∧
  (∀ (addr : Addr12) (s : State), s.sp = 16 → Traps (.call addr) s (.stackOverflow s.pc))

/-- `SE Vx, kk` and `SNE Vx, kk` (R104, R105): `pc` advances by 4 when the skip is taken, else by 2; nothing else changes. -/
def Obligations.SkipsOnImmediate : Prop :=
  EncodedBy 0xF000#16 0x3000#16 (fun f => .seImm f.x f.kk) ∧
  EncodedBy 0xF000#16 0x4000#16 (fun f => .sneImm f.x f.kk) ∧
  ∀ (x : Reg) (kk : Byte) (s : State),
    Completes (.seImm x kk) s (if s.getV x = kk then s.pc + 4#16 else s.pc + 2#16) false {} (fun _ => True) ∧
    Completes (.sneImm x kk) s (if s.getV x ≠ kk then s.pc + 4#16 else s.pc + 2#16) false {} (fun _ => True)

/-- `SE Vx, Vy` and `SNE Vx, Vy` (R106, R107). -/
def Obligations.SkipsOnRegisters : Prop :=
  EncodedBy 0xF00F#16 0x5000#16 (fun f => .seReg f.x f.y) ∧
  EncodedBy 0xF00F#16 0x9000#16 (fun f => .sneReg f.x f.y) ∧
  ∀ (x y : Reg) (s : State),
    Completes (.seReg x y) s (if s.getV x = s.getV y then s.pc + 4#16 else s.pc + 2#16) false {} (fun _ => True) ∧
    Completes (.sneReg x y) s (if s.getV x ≠ s.getV y then s.pc + 4#16 else s.pc + 2#16) false {} (fun _ => True)

/-- `JP V0, addr` (R108): `pc` becomes `V0 + addr`, not reduced to 12 bits; `V0` is the register read, whatever
`x` is. The targets 0 and 1 are reached through a subtraction that wraps (decision D5). -/
def Obligations.JpV0AddsWithoutReduction : Prop :=
  EncodedBy 0xF000#16 0xB000#16 (fun f => .jpV0 f.addr) ∧
  ∀ (addr : Addr12) (s : State), ∃ pc' : Word, pc'.toNat = (s.getV 0).toNat + addr.toNat ∧
    Completes (.jpV0 addr) s pc' false {} (fun _ => True)

/-- A `CALL` and then a `RET` restore `pc` to the instruction after the `CALL`, and the depth (R103, R101, source §8). -/
def Obligations.CallThenRetReturns : Prop :=
  ∀ (addr : Addr12) (s t : State), s.sp.val < 16 → exec (.call addr) s = .next t →
    ∃ u, exec .ret t = .next u ∧ u.pc = s.pc + 2#16 ∧ u.sp = s.sp ∧
      ∀ j : Fin 16, j.val < s.sp.val → u.stack[j.val] = s.stack[j.val]

/-! ## Register loads, arithmetic, logic, shifts, random -/

/-- `LD Vx, kk` (R142). -/
def Obligations.LdImmLoadsTheByte : Prop :=
  EncodedBy 0xF000#16 0x6000#16 (fun f => .ldImm f.x f.kk) ∧
  ∀ (x : Reg) (kk : Byte) (s : State),
    Completes (.ldImm x kk) s (s.pc + 2#16) false { regs := [x] } (fun t => t.getV x = kk)

/-- `ADD Vx, kk` (R143): modulo 256, no flag, with `x = 15` the sum as a plain register. -/
def Obligations.AddImmWrapsWithoutFlag : Prop :=
  EncodedBy 0xF000#16 0x7000#16 (fun f => .addImm f.x f.kk) ∧
  ∀ (x : Reg) (kk : Byte) (s : State),
    Completes (.addImm x kk) s (s.pc + 2#16) false { regs := [x] }
      (fun t => (t.getV x).toNat = ((s.getV x).toNat + kk.toNat) % 256)

/-- `LD Vx, Vy` (R144). -/
def Obligations.LdRegCopies : Prop :=
  EncodedBy 0xF00F#16 0x8000#16 (fun f => .ldReg f.x f.y) ∧
  ∀ (x y : Reg) (s : State),
    Completes (.ldReg x y) s (s.pc + 2#16) false { regs := [x] } (fun t => t.getV x = s.getV y)

/-- `OR`, `AND`, `XOR` (R145, R146, R147): bit by bit; `VF` changes only as the destination. -/
def Obligations.LogicIsBitwiseWithoutFlag : Prop :=
  EncodedBy 0xF00F#16 0x8001#16 (fun f => .orReg f.x f.y) ∧
  EncodedBy 0xF00F#16 0x8002#16 (fun f => .andReg f.x f.y) ∧
  EncodedBy 0xF00F#16 0x8003#16 (fun f => .xorReg f.x f.y) ∧
  ∀ (x y : Reg) (s : State),
    Completes (.orReg x y) s (s.pc + 2#16) false { regs := [x] }
      (fun t => ∀ k, (t.getV x).getLsbD k = ((s.getV x).getLsbD k || (s.getV y).getLsbD k)) ∧
    Completes (.andReg x y) s (s.pc + 2#16) false { regs := [x] }
      (fun t => ∀ k, (t.getV x).getLsbD k = ((s.getV x).getLsbD k && (s.getV y).getLsbD k)) ∧
    Completes (.xorReg x y) s (s.pc + 2#16) false { regs := [x] }
      (fun t => ∀ k, (t.getV x).getLsbD k = ((s.getV x).getLsbD k != (s.getV y).getLsbD k))

/-- `ADD Vx, Vy` (R148): the sum modulo 256 and the carry, both from the values before. With `x = 15` the flag is what
stays (the spec's decision D9, `VF_ORDER = FlagLast`, R141). -/
def Obligations.AddRegSetsCarry : Prop :=
  EncodedBy 0xF00F#16 0x8004#16 (fun f => .addReg f.x f.y) ∧
  ∀ (x y : Reg) (s : State),
    Completes (.addReg x y) s (s.pc + 2#16) false { regs := [x, vf] } (fun t =>
      (x ≠ vf → (t.getV x).toNat = ((s.getV x).toNat + (s.getV y).toNat) % 256) ∧
      t.getV vf = if 255 < (s.getV x).toNat + (s.getV y).toNat then 1#8 else 0#8)

/-- `SUB` and `SUBN` (R149, R150): the difference modulo 256 and not-borrow, both from the values before. With `x = 15` the
flag is what stays (the spec's decision D9, R141). -/
def Obligations.SubtractionsSetNotBorrow : Prop :=
  EncodedBy 0xF00F#16 0x8005#16 (fun f => .sub f.x f.y) ∧
  EncodedBy 0xF00F#16 0x8007#16 (fun f => .subn f.x f.y) ∧
  ∀ (x y : Reg) (s : State),
    Completes (.sub x y) s (s.pc + 2#16) false { regs := [x, vf] } (fun t =>
      (x ≠ vf → (t.getV x).toNat = ((s.getV x).toNat + 256 - (s.getV y).toNat) % 256) ∧
      t.getV vf = if (s.getV y).toNat ≤ (s.getV x).toNat then 1#8 else 0#8) ∧
    Completes (.subn x y) s (s.pc + 2#16) false { regs := [x, vf] } (fun t =>
      (x ≠ vf → (t.getV x).toNat = ((s.getV y).toNat + 256 - (s.getV x).toNat) % 256) ∧
      t.getV vf = if (s.getV x).toNat ≤ (s.getV y).toNat then 1#8 else 0#8)

/-- `SHR` and `SHL` (R151, R152): in place on `Vx`, whatever `y` is; `VF` takes the bit shifted out of the value before.
With `x = 15` the flag is what stays (the spec's decision D9, R141). -/
def Obligations.ShiftsSetTheBitShiftedOut : Prop :=
  EncodedBy 0xF00F#16 0x8006#16 (fun f => .shr f.x f.y) ∧
  EncodedBy 0xF00F#16 0x800E#16 (fun f => .shl f.x f.y) ∧
  ∀ (x y : Reg) (s : State),
    Completes (.shr x y) s (s.pc + 2#16) false { regs := [x, vf] } (fun t =>
      (x ≠ vf → (t.getV x).toNat = (s.getV x).toNat / 2) ∧ (t.getV vf).toNat = (s.getV x).toNat % 2) ∧
    Completes (.shl x y) s (s.pc + 2#16) false { regs := [x, vf] } (fun t =>
      (x ≠ vf → (t.getV x).toNat = (s.getV x).toNat * 2 % 256) ∧ (t.getV vf).toNat = (s.getV x).toNat / 128)

/-- `RND Vx, kk` (R153): `V[x]` becomes the cycle's random byte masked, so it has no bit `kk` lacks; the byte is the
host's where the cycle is a pending `Cycle(r)`, and the free value of the draw otherwise. The pending operation, the free
value by its number and the count of draws are the model's choice (assumptions 3, 5). -/
def Obligations.RndMasksTheRandomByte : Prop :=
  EncodedBy 0xF000#16 0xC000#16 (fun f => .rnd f.x f.kk) ∧
  ∀ (x : Reg) (kk : Byte) (s : State),
    Completes (.rnd x kk) s (s.pc + 2#16) false { regs := [x], draws := true } (fun t =>
      (∀ r rest, s.host = .cycle r :: rest → t.getV x = r &&& kk) ∧
      (s.host = [] → t.getV x = Config.randomByte s.draws &&& kk) ∧
      (∀ k, kk.getLsbD k = false → (t.getV x).getLsbD k = false) ∧
      t.draws = s.draws + 1)

/-- No instruction of 41_alu.md reads or writes `I`, `mem`, the stack, the timers, `fb` or `latch` (R154): these items are
as they were, and what is written to the registers is told by the registers and the random byte alone. -/
def Obligations.AluTouchesOnlyRegisters : Prop :=
  ∀ (i : Instr) (s u : State), isAlu i = true → s.v = u.v → s.randomByte = u.randomByte →
    ∃ t w, exec i s = .next t ∧ exec i u = .next w ∧ t.v = w.v ∧
      t.i = s.i ∧ t.mem = s.mem ∧ t.stack = s.stack ∧ t.sp = s.sp ∧ t.dt = s.dt ∧ t.st = s.st ∧ t.fb = s.fb ∧
      t.latch = s.latch

/-! ## The index register and memory -/

/-- `LD I, addr` (R180). -/
def Obligations.LdILoadsTheAddress : Prop :=
  EncodedBy 0xF000#16 0xA000#16 (fun f => .ldI f.addr) ∧
  ∀ (addr : Addr12) (s : State),
    Completes (.ldI addr) s (s.pc + 2#16) false { index := true } (fun t => t.i.toNat = addr.toNat)

/-- `ADD I, Vx` (R181): modulo `2^16` (decision D8), `VF` not changed. -/
def Obligations.AddIWrapsWithoutFlag : Prop :=
  EncodedBy 0xF0FF#16 0xF01E#16 (fun f => .addI f.x) ∧
  ∀ (x : Reg) (s : State),
    Completes (.addI x) s (s.pc + 2#16) false { index := true }
      (fun t => t.i.toNat = (s.i.toNat + (s.getV x).toNat) % 65536)

/-- `LD F, Vx` (R182): five times the whole byte, not masked to a digit. -/
def Obligations.LdFPointsAtTheGlyph : Prop :=
  EncodedBy 0xF0FF#16 0xF029#16 (fun f => .ldF f.x) ∧
  ∀ (x : Reg) (s : State),
    Completes (.ldF x) s (s.pc + 2#16) false { index := true } (fun t => t.i.toNat = (s.getV x).toNat * 5)

/-- `LD B, Vx` (R183): hundreds, tens and ones at `I`, `I+1`, `I+2`, `I` kept; where one of them is outside memory the
core halts with the lowest such address (never wrapped, decision D7) and nothing is written (decision D15). -/
def Obligations.LdBStoresTheDecimalDigits : Prop :=
  EncodedBy 0xF0FF#16 0xF033#16 (fun f => .ldB f.x) ∧
  (∀ (x : Reg) (s : State), indexed s 2 < Config.memSize →
    Completes (.ldB x) s (s.pc + 2#16) false { bytes := [indexed s 0, indexed s 1, indexed s 2] } (fun t =>
      (t.mem.read (indexed s 0)).toNat = (s.getV x).toNat / 100 ∧
      (t.mem.read (indexed s 1)).toNat = (s.getV x).toNat / 10 % 10 ∧
      (t.mem.read (indexed s 2)).toNat = (s.getV x).toNat % 10)) ∧
  (∀ (x : Reg) (s : State) (k : Nat), k < 3 → LowestOutside s k → Traps (.ldB x) s (.memoryOutOfBounds .write (indexed s k)))

/-- `LD [I], Vx` (R184): `V0` to `V[x]` are stored at `I` to `I+x` and `I` advances by `x+1`; where one of the addresses is
outside memory the core halts with the lowest such (never wrapped, decision D7) and nothing is written (decision D15). -/
def Obligations.StoreRegsStoresAndAdvancesI : Prop :=
  EncodedBy 0xF0FF#16 0xF055#16 (fun f => .storeRegs f.x) ∧
  (∀ (x : Reg) (s : State), indexed s x.val < Config.memSize →
    Completes (.storeRegs x) s (s.pc + 2#16) false { bytes := addressesFromI s (x.val + 1), index := true } (fun t =>
      (∀ k : Reg, k ≤ x → t.mem.read (indexed s k.val) = s.getV k) ∧ t.i.toNat = s.i.toNat + x.val + 1)) ∧
  (∀ (x : Reg) (s : State) (k : Nat), k ≤ x.val → LowestOutside s k → Traps (.storeRegs x) s (.memoryOutOfBounds .write (indexed s k)))

/-- `LD Vx, [I]` (R185): `V0` to `V[x]` take the bytes at `I` to `I+x`, the registers above keep theirs, and `I` advances
by `x+1`; where one of the addresses is outside memory the core halts with the lowest such (never wrapped, decision D7)
and nothing is written (decision D15). -/
def Obligations.LoadRegsLoadsAndAdvancesI : Prop :=
  EncodedBy 0xF0FF#16 0xF065#16 (fun f => .loadRegs f.x) ∧
  (∀ (x : Reg) (s : State), indexed s x.val < Config.memSize →
    Completes (.loadRegs x) s (s.pc + 2#16) false { regs := regsUpTo x, index := true } (fun t =>
      (∀ k : Reg, k ≤ x → t.getV k = s.mem.read (indexed s k.val)) ∧
      (∀ k : Reg, x < k → t.getV k = s.getV k) ∧ t.i.toNat = s.i.toNat + x.val + 1)) ∧
  (∀ (x : Reg) (s : State) (k : Nat), k ≤ x.val → LowestOutside s k → Traps (.loadRegs x) s (.memoryOutOfBounds .read (indexed s k)))

/-- Storing registers and loading as many back from the same `I` gives the registers that were stored, whatever the
registers hold in between (R184, R185, R60). -/
def Obligations.StoredRegistersLoadBack : Prop :=
  ∀ (x : Reg) (s t u w : State), indexed s x.val < Config.memSize → exec (.storeRegs x) s = .next t →
    u.mem = t.mem → u.i = s.i → exec (.loadRegs x) u = .next w →
    (∀ k : Reg, k ≤ x → w.getV k = s.getV k) ∧ w.i = t.i ∧ w.mem = t.mem

/-- A store is seen by the next fetch (R65, derived there): wherever the `pc` is put inside the bytes `LD [I], Vx` has
stored, the word fetched is made of the two registers stored there; wherever inside the three bytes of `LD B, Vx`, of the
two digits stored there. -/
def Obligations.StoredBytesAreFetched : Prop :=
  (∀ (x k : Reg) (s t : State) (pc : Word), k < x → indexed s x.val < Config.memSize → pc.toNat = indexed s k.val →
    exec (.storeRegs x) s = .next t →
    State.fetch { t with pc := pc } = .ok (wordOfBytes (s.getV k) (s.getV (k + 1)))) ∧
  (∀ (x : Reg) (s t : State) (pc : Word), indexed s 2 < Config.memSize → exec (.ldB x) s = .next t →
    (pc.toNat = indexed s 0 → ∃ w, State.fetch { t with pc := pc } = .ok w ∧
      w.toNat = (s.getV x).toNat / 100 * 256 + (s.getV x).toNat / 10 % 10) ∧
    (pc.toNat = indexed s 1 → ∃ w, State.fetch { t with pc := pc } = .ok w ∧
      w.toNat = (s.getV x).toNat / 10 % 10 * 256 + (s.getV x).toNat % 10))

/-! ## Display -/

/-- `CLS` (R210): every cell false; `changed` (decision D12); `VF` not written (decision D27). -/
def Obligations.ClsClearsTheScreen : Prop :=
  EncodedBy 0xFFFF#16 0x00E0#16 (fun _ => .cls) ∧
  ∀ s : State, Completes .cls s (s.pc + 2#16) true { screen := true } (fun t => ∀ k : Fin 2048, t.fb[k.val] = false)

/-- `DRW Vx, Vy, n` (R211 to R217): with its bytes in memory, exactly the pixels a drawn 1 bit lands on are inverted, and
`VF` is 1 when one of them was on before, else 0. Rows past row 31 are not drawn (decision D10) but are read (D11);
`changed` is decision D12. -/
def Obligations.DrwInvertsThePixelsItLandsOn : Prop :=
  EncodedBy 0xF000#16 0xD000#16 (fun f => .drw f.x f.y f.nibble) ∧
  ∀ (x y : Reg) (n : Nibble) (s : State), (∀ row, row < n.toNat → indexed s row < Config.memSize) →
    Completes (.drw x y n) s (s.pc + 2#16) true { regs := [vf], screen := true } (fun t =>
      (∀ px py, Lands x y n s px py → pixel t px py = !pixel s px py) ∧
      (∀ px py, ¬Lands x y n s px py → pixel t px py = pixel s px py) ∧
      ((∃ px py, Lands x y n s px py ∧ pixel s px py = true) → t.getV vf = 1#8) ∧
      ((∀ px py, Lands x y n s px py → pixel s px py = false) → t.getV vf = 0#8))

/-- `DRW` with a row outside memory halts the core with the lowest such address, nothing drawn, whether or not the row
would be drawn (R211, decision D11). -/
def Obligations.DrwOutsideMemoryHalts : Prop :=
  ∀ (x y : Reg) (n : Nibble) (s : State) (k : Nat), k < n.toNat → LowestOutside s k → Traps (.drw x y n) s (.memoryOutOfBounds .read (indexed s k))

/-- A sprite of zero bytes changes no cell and sets `VF` to 0, at any position (R218 item 1, derived there). -/
def Obligations.BlankSpriteDrawsNothing : Prop :=
  ∀ (x y : Reg) (n : Nibble) (s : State),
    (∀ row, row < n.toNat → indexed s row < Config.memSize ∧ s.mem.read (indexed s row) = 0#8) →
    ∃ t, exec (.drw x y n) s = .next t ∧ t.fb = s.fb ∧ t.getV vf = 0#8

/-- Two identical `DRW`s in succession, with coordinates not in `VF`, restore the framebuffer (R218 item 2, derived there). -/
def Obligations.DrawingTwiceRestoresTheScreen : Prop :=
  ∀ (x y : Reg) (n : Nibble) (s : State), x ≠ vf → y ≠ vf →
    (∀ row, row < n.toNat → indexed s row < Config.memSize) →
    ∃ t u, exec (.drw x y n) s = .next t ∧ exec (.drw x y n) t = .next u ∧ u.fb = s.fb

/-- In that pair the first sets `VF` if and only if a drawn 1 bit landed on a cell that was on before it, the second if and
only if one landed on a cell that was off before the first (R218 item 3, conflict C2). -/
def Obligations.CollisionsOfADoubleDraw : Prop :=
  ∀ (x y : Reg) (n : Nibble) (s : State), x ≠ vf → y ≠ vf →
    (∀ row, row < n.toNat → indexed s row < Config.memSize) →
    ∃ t u, exec (.drw x y n) s = .next t ∧ exec (.drw x y n) t = .next u ∧
      (t.getV vf = 1#8 ↔ ∃ px py, Lands x y n s px py ∧ pixel s px py = true) ∧
      (u.getV vf = 1#8 ↔ ∃ px py, Lands x y n s px py ∧ pixel s px py = false)

/-! ## Key input and timers -/

/-- `SKP Vx` and `SKNP Vx` (R240, R241): the latch is compared with the whole register and not consumed (decision D13,
conflict C3); with no key latched `SKNP` skips and `SKP` does not. -/
def Obligations.KeyTestsReadTheLatch : Prop :=
  EncodedBy 0xF0FF#16 0xE09E#16 (fun f => .skp f.x) ∧
  EncodedBy 0xF0FF#16 0xE0A1#16 (fun f => .sknp f.x) ∧
  (∀ (x : Reg) (s : State), s.latch = none →
    Completes (.skp x) s (s.pc + 2#16) false {} (fun _ => True) ∧
    Completes (.sknp x) s (s.pc + 4#16) false {} (fun _ => True)) ∧
  (∀ (x : Reg) (s : State) (k : Key), s.latch = some k →
    Completes (.skp x) s (if k.toNat = (s.getV x).toNat then s.pc + 4#16 else s.pc + 2#16) false {} (fun _ => True) ∧
    Completes (.sknp x) s (if k.toNat ≠ (s.getV x).toNat then s.pc + 4#16 else s.pc + 2#16) false {} (fun _ => True))

/-- `LD Vx, DT`, `LD DT, Vx`, `LD ST, Vx` (R242, R244, R245). -/
def Obligations.TimerLoadsCopy : Prop :=
  EncodedBy 0xF0FF#16 0xF007#16 (fun f => .ldVxDT f.x) ∧
  EncodedBy 0xF0FF#16 0xF015#16 (fun f => .ldDTVx f.x) ∧
  EncodedBy 0xF0FF#16 0xF018#16 (fun f => .ldSTVx f.x) ∧
  ∀ (x : Reg) (s : State),
    Completes (.ldVxDT x) s (s.pc + 2#16) false { regs := [x] } (fun t => t.getV x = s.dt) ∧
    Completes (.ldDTVx x) s (s.pc + 2#16) false { delay := true } (fun t => t.dt = s.getV x) ∧
    Completes (.ldSTVx x) s (s.pc + 2#16) false { sound := true } (fun t => t.st = s.getV x)

/-- `LD Vx, K` (R243): with a key latched it is loaded and the latch cleared; with none the cycle stalls and no item
changes. -/
def Obligations.KeyWaitTakesTheKey : Prop :=
  EncodedBy 0xF0FF#16 0xF00A#16 (fun f => .ldVxK f.x) ∧
  (∀ (x : Reg) (s : State) (k : Key), s.latch = some k →
    Completes (.ldVxK x) s (s.pc + 2#16) false { regs := [x], latch := true } (fun t =>
      (t.getV x).toNat = k.toNat ∧ t.latch = none)) ∧
  (∀ (x : Reg) (s : State), s.latch = none →
    ∃ t, exec (.ldVxK x) s = .next t ∧ t.reply = .stalled ∧ SameItems s t ∧ t.draws = s.draws ∧ t.host = s.host)

/-! ## The host interface -/

/-- `Tick()` (R280): both timers one less, floored at 0, and nothing else changed, halted or not. That the operation stands
in `host` and is then no longer pending, and the count of draws, are the model's own (assumptions 3, 5). -/
def Obligations.TickFloorsBothTimers : Prop :=
  ∀ (s : State) (rest : List HostOp), s.host = .tick :: rest →
    ∃ t, step s = .next t ∧ t.dt.toNat = (if 0 < s.dt.toNat then s.dt.toNat - 1 else 0) ∧
      t.st.toNat = (if 0 < s.st.toNat then s.st.toNat - 1 else 0) ∧
      SameItems s { t with dt := s.dt, st := s.st } ∧ t.host = rest ∧ t.draws = s.draws

/-- The key operations and the read operations (R285): `SetKey` overwrites the latch, `ClearKey` empties it, and the four
reads return the latch, the framebuffer, `ST` (decision D23) and `halt` and change no item. -/
def Obligations.KeyAndReadOperations : Prop :=
  ∀ (s : State) (rest : List HostOp),
    (∀ k, s.host = .setKey k :: rest →
      ∃ t, step s = .next t ∧ t.latch = some k ∧ SameItems s { t with latch := s.latch } ∧ t.host = rest) ∧
    (s.host = .clearKey :: rest →
      ∃ t, step s = .next t ∧ t.latch = none ∧ SameItems s { t with latch := s.latch } ∧ t.host = rest) ∧
    (s.host = .getKey :: rest →
      ∃ t, step s = .next t ∧ t.reply = .key s.latch ∧ SameItems s t ∧ t.host = rest) ∧
    (s.host = .readFb :: rest →
      ∃ t, step s = .next t ∧ t.reply = .frame s.fb ∧ SameItems s t ∧ t.host = rest) ∧
    (s.host = .readST :: rest →
      ∃ t, step s = .next t ∧ t.reply = .soundTimer s.st ∧ SameItems s t ∧ t.host = rest) ∧
    (s.host = .readHalt :: rest →
      ∃ t, step s = .next t ∧ t.reply = .haltRecord s.halt ∧ SameItems s t ∧ t.host = rest)

/-- The program image (R302): byte `j` lands at `0x200 + j`, and the bytes beyond it up to the end of memory are zero. -/
def Obligations.ResetPlacesTheImage : Prop :=
  ∀ (s : State) (image : List Byte) (rest : List HostOp), s.host = .reset image :: rest → image.length ≤ 3584 →
    ∃ t, step s = .next t ∧
      (∀ (j : Nat) (h : j < image.length), t.mem.read (0x200 + j) = image[j]) ∧
      (∀ a, 0x200 + image.length ≤ a → a < Config.memSize → t.mem.read a = 0#8)

/-- What `Reset(image)` leaves in every item, whatever was there (R300, R44; all but `pc` and memory from the program on
are the spec's decision D16, the font and the zeros after it D17), and that an image that does not fit is refused (D18). -/
def Obligations.ResetSetsEveryItem : Prop :=
  ∀ (s : State) (image : List Byte) (rest : List HostOp), s.host = .reset image :: rest →
    (image.length ≤ 3584 →
      ∃ t, step s = .next t ∧ t.pc = 0x200#16 ∧ (∀ x : Reg, t.getV x = 0#8) ∧ t.i = 0#16 ∧ t.sp = 0 ∧
        (∀ j : Fin 16, t.stack[j.val] = 0#16) ∧ t.dt = 0#8 ∧ t.st = 0#8 ∧ (∀ k : Fin 2048, t.fb[k.val] = false) ∧
        t.latch = none ∧ t.halt = none ∧ t.host = rest ∧
        (∀ a, a < 80 → t.mem.read a = fontBytes.getD a 0) ∧ (∀ a, 80 ≤ a → a < 0x200 → t.mem.read a = 0#8)) ∧
    (3584 < image.length → step s = .refused (.imageTooLong image.length))

/-- A halted core stays halted (R274): where the host only calls for cycles there is no step; a pending `Cycle` changes no
item; the host's timer, key and framebuffer operations still act; only `Reset` clears `halt`. The stop of the step
(assumption 1) and the answer to a pending `Cycle` (assumptions 4, 5) are the model's form of "no cycle". -/
def Obligations.OnlyResetEndsAHalt : Prop :=
  ∀ (s : State) (r : HaltRecord), s.halt = some r →
    (s.cyclesNext → step s = .fault (.halted r)) ∧
    (∀ b rest, s.host = .cycle b :: rest → ∃ t, step s = .next t ∧ SameItems s t ∧ t.host = rest) ∧
    (∀ op rest t, s.host = op :: rest → (∀ image, op ≠ .reset image) → step s = .next t → t.halt = some r) ∧
    (∀ rest, s.host = .tick :: rest →
      ∃ t, step s = .next t ∧ t.dt.toNat = s.dt.toNat - 1 ∧ t.st.toNat = s.st.toNat - 1) ∧
    (∀ k rest, s.host = .setKey k :: rest → ∃ t, step s = .next t ∧ t.latch = some k) ∧
    (∀ rest, s.host = .clearKey :: rest → ∃ t, step s = .next t ∧ t.latch = none) ∧
    (∀ rest, s.host = .readFb :: rest → ∃ t, step s = .next t ∧ t.reply = .frame s.fb) ∧
    (∀ image rest, s.host = .reset image :: rest → image.length ≤ 3584 → ∃ t, step s = .next t ∧ t.halt = none)

/-! ## More of the whole machine -/

/-- Within one `DRW` no cell is toggled twice (R217, derived there): two different bits of a sprite of up to 15 rows land on
different cells, whichever policy the rows follow. So each collision is with a cell as it was before the `DRW`
(`Obligations.DrwInvertsThePixelsItLandsOn`). -/
def Obligations.NoCellIsToggledTwice : Prop :=
  ∀ (policy : RowPolicy) (x0 y0 : Byte) (row row' col col' : Nat) (py py' : Fin 32),
    row < 15 → row' < 15 → col < 8 → col' < 8 →
    rowTarget policy (y0.toNat + row) = some py → rowTarget policy (y0.toNat + row') = some py' →
    cellIndex (columnTarget x0 col) py = cellIndex (columnTarget x0 col') py' → row = row' ∧ col = col'

/-- No instruction reads `ST` (R33, R242): with another value in `ST` it answers the same next state with that other value
kept, but for `LD ST, Vx`, which answers the very same next state. -/
def Obligations.NoInstructionReadsTheSoundTimer : Prop :=
  ∀ (i : Instr) (s t : State) (b : Byte), exec i s = .next t →
    exec i { s with st := b } = .next (if ∃ x, i = .ldSTVx x then t else { t with st := b })

/-- The host may run any sequence of its operations, without end too, between any two cycles, a stall included (R287,
decision D14). What is pending runs first; a host that goes on without end then runs the free operation of its number,
and after it the one of the next number, so that it never comes to only calling for cycles. The form is the model's own
(assumption 5). -/
def Obligations.TheHostMayRunAnySequence : Prop :=
  ∀ s : State,
    (∀ op rest, s.host = op :: rest → step s = hostStep op { s with host := rest } ∧
      ∀ t, step s = .next t → t.host = rest ∧ t.schedule = s.schedule) ∧
    (∀ n, s.host = [] → s.schedule = .free n →
      step s = step { s with host := [Config.hostOp n], schedule := .free (n + 1) } ∧
      ∀ t, step s = .next t → t.host = [] ∧ t.schedule = .free (n + 1))
end

