-- ==== Sys2Proof/Laws/State.lean ====
section
/-! SUPPORT. Each field after each named update of State, so that no proof unfolds a record update. -/

namespace Sys2Proof.Machine

variable (s : State)

/-! ## setV -/

@[simp] theorem State.setV_mem (x : Reg) (b : Byte) : (s.setV x b).mem = s.mem := rfl
@[simp] theorem State.setV_v (x : Reg) (b : Byte) : (s.setV x b).v = s.v.set x.val b := rfl
@[simp] theorem State.setV_i (x : Reg) (b : Byte) : (s.setV x b).i = s.i := rfl
@[simp] theorem State.setV_pc (x : Reg) (b : Byte) : (s.setV x b).pc = s.pc := rfl
@[simp] theorem State.setV_stack (x : Reg) (b : Byte) : (s.setV x b).stack = s.stack := rfl
@[simp] theorem State.setV_sp (x : Reg) (b : Byte) : (s.setV x b).sp = s.sp := rfl
@[simp] theorem State.setV_dt (x : Reg) (b : Byte) : (s.setV x b).dt = s.dt := rfl
@[simp] theorem State.setV_st (x : Reg) (b : Byte) : (s.setV x b).st = s.st := rfl
@[simp] theorem State.setV_fb (x : Reg) (b : Byte) : (s.setV x b).fb = s.fb := rfl
@[simp] theorem State.setV_latch (x : Reg) (b : Byte) : (s.setV x b).latch = s.latch := rfl
@[simp] theorem State.setV_halt (x : Reg) (b : Byte) : (s.setV x b).halt = s.halt := rfl
@[simp] theorem State.setV_reply (x : Reg) (b : Byte) : (s.setV x b).reply = s.reply := rfl
@[simp] theorem State.setV_draws (x : Reg) (b : Byte) : (s.setV x b).draws = s.draws := rfl
@[simp] theorem State.setV_host (x : Reg) (b : Byte) : (s.setV x b).host = s.host := rfl
@[simp] theorem State.setV_schedule (x : Reg) (b : Byte) : (s.setV x b).schedule = s.schedule := rfl

/-! ## completed -/

@[simp] theorem State.completed_mem (pcH : Word) (c : Bool) : (s.completed pcH c).mem = s.mem := rfl
@[simp] theorem State.completed_v (pcH : Word) (c : Bool) : (s.completed pcH c).v = s.v := rfl
@[simp] theorem State.completed_i (pcH : Word) (c : Bool) : (s.completed pcH c).i = s.i := rfl
@[simp] theorem State.completed_pc (pcH : Word) (c : Bool) : (s.completed pcH c).pc = pcH + 2#16 := rfl
@[simp] theorem State.completed_stack (pcH : Word) (c : Bool) : (s.completed pcH c).stack = s.stack := rfl
@[simp] theorem State.completed_sp (pcH : Word) (c : Bool) : (s.completed pcH c).sp = s.sp := rfl
@[simp] theorem State.completed_dt (pcH : Word) (c : Bool) : (s.completed pcH c).dt = s.dt := rfl
@[simp] theorem State.completed_st (pcH : Word) (c : Bool) : (s.completed pcH c).st = s.st := rfl
@[simp] theorem State.completed_fb (pcH : Word) (c : Bool) : (s.completed pcH c).fb = s.fb := rfl
@[simp] theorem State.completed_latch (pcH : Word) (c : Bool) : (s.completed pcH c).latch = s.latch := rfl
@[simp] theorem State.completed_halt (pcH : Word) (c : Bool) : (s.completed pcH c).halt = s.halt := rfl
@[simp] theorem State.completed_reply (pcH : Word) (c : Bool) : (s.completed pcH c).reply = .done c := rfl
@[simp] theorem State.completed_draws (pcH : Word) (c : Bool) : (s.completed pcH c).draws = s.draws := rfl
@[simp] theorem State.completed_host (pcH : Word) (c : Bool) : (s.completed pcH c).host = s.host := rfl
@[simp] theorem State.completed_schedule (pcH : Word) (c : Bool) : (s.completed pcH c).schedule = s.schedule := rfl

/-! ## stalled -/

@[simp] theorem State.stalled_mem : (s.stalled).mem = s.mem := rfl
@[simp] theorem State.stalled_v : (s.stalled).v = s.v := rfl
@[simp] theorem State.stalled_i : (s.stalled).i = s.i := rfl
@[simp] theorem State.stalled_pc : (s.stalled).pc = s.pc := rfl
@[simp] theorem State.stalled_stack : (s.stalled).stack = s.stack := rfl
@[simp] theorem State.stalled_sp : (s.stalled).sp = s.sp := rfl
@[simp] theorem State.stalled_dt : (s.stalled).dt = s.dt := rfl
@[simp] theorem State.stalled_st : (s.stalled).st = s.st := rfl
@[simp] theorem State.stalled_fb : (s.stalled).fb = s.fb := rfl
@[simp] theorem State.stalled_latch : (s.stalled).latch = s.latch := rfl
@[simp] theorem State.stalled_halt : (s.stalled).halt = s.halt := rfl
@[simp] theorem State.stalled_reply : (s.stalled).reply = .stalled := rfl
@[simp] theorem State.stalled_draws : (s.stalled).draws = s.draws := rfl
@[simp] theorem State.stalled_host : (s.stalled).host = s.host := rfl
@[simp] theorem State.stalled_schedule : (s.stalled).schedule = s.schedule := rfl

/-! ## faulted -/

@[simp] theorem State.faulted_mem (f : CoreFault) : (s.faulted f).mem = s.mem := rfl
@[simp] theorem State.faulted_v (f : CoreFault) : (s.faulted f).v = s.v := rfl
@[simp] theorem State.faulted_i (f : CoreFault) : (s.faulted f).i = s.i := rfl
@[simp] theorem State.faulted_pc (f : CoreFault) : (s.faulted f).pc = s.pc := rfl
@[simp] theorem State.faulted_stack (f : CoreFault) : (s.faulted f).stack = s.stack := rfl
@[simp] theorem State.faulted_sp (f : CoreFault) : (s.faulted f).sp = s.sp := rfl
@[simp] theorem State.faulted_dt (f : CoreFault) : (s.faulted f).dt = s.dt := rfl
@[simp] theorem State.faulted_st (f : CoreFault) : (s.faulted f).st = s.st := rfl
@[simp] theorem State.faulted_fb (f : CoreFault) : (s.faulted f).fb = s.fb := rfl
@[simp] theorem State.faulted_latch (f : CoreFault) : (s.faulted f).latch = s.latch := rfl
@[simp] theorem State.faulted_halt (f : CoreFault) : (s.faulted f).halt = some ⟨f, s.pc⟩ := rfl
@[simp] theorem State.faulted_reply (f : CoreFault) : (s.faulted f).reply = .faulted f := rfl
@[simp] theorem State.faulted_draws (f : CoreFault) : (s.faulted f).draws = s.draws := rfl
@[simp] theorem State.faulted_host (f : CoreFault) : (s.faulted f).host = s.host := rfl
@[simp] theorem State.faulted_schedule (f : CoreFault) : (s.faulted f).schedule = s.schedule := rfl

/-! ## replied -/

@[simp] theorem State.replied_mem (r : Reply) : (s.replied r).mem = s.mem := rfl
@[simp] theorem State.replied_v (r : Reply) : (s.replied r).v = s.v := rfl
@[simp] theorem State.replied_i (r : Reply) : (s.replied r).i = s.i := rfl
@[simp] theorem State.replied_pc (r : Reply) : (s.replied r).pc = s.pc := rfl
@[simp] theorem State.replied_stack (r : Reply) : (s.replied r).stack = s.stack := rfl
@[simp] theorem State.replied_sp (r : Reply) : (s.replied r).sp = s.sp := rfl
@[simp] theorem State.replied_dt (r : Reply) : (s.replied r).dt = s.dt := rfl
@[simp] theorem State.replied_st (r : Reply) : (s.replied r).st = s.st := rfl
@[simp] theorem State.replied_fb (r : Reply) : (s.replied r).fb = s.fb := rfl
@[simp] theorem State.replied_latch (r : Reply) : (s.replied r).latch = s.latch := rfl
@[simp] theorem State.replied_halt (r : Reply) : (s.replied r).halt = s.halt := rfl
@[simp] theorem State.replied_reply (r : Reply) : (s.replied r).reply = r := rfl
@[simp] theorem State.replied_draws (r : Reply) : (s.replied r).draws = s.draws := rfl
@[simp] theorem State.replied_host (r : Reply) : (s.replied r).host = s.host := rfl
@[simp] theorem State.replied_schedule (r : Reply) : (s.replied r).schedule = s.schedule := rfl

/-! ## tick -/

@[simp] theorem State.tick_mem : (s.tick).mem = s.mem := rfl
@[simp] theorem State.tick_v : (s.tick).v = s.v := rfl
@[simp] theorem State.tick_i : (s.tick).i = s.i := rfl
@[simp] theorem State.tick_pc : (s.tick).pc = s.pc := rfl
@[simp] theorem State.tick_stack : (s.tick).stack = s.stack := rfl
@[simp] theorem State.tick_sp : (s.tick).sp = s.sp := rfl
@[simp] theorem State.tick_dt : (s.tick).dt = ticked s.dt := rfl
@[simp] theorem State.tick_st : (s.tick).st = ticked s.st := rfl
@[simp] theorem State.tick_fb : (s.tick).fb = s.fb := rfl
@[simp] theorem State.tick_latch : (s.tick).latch = s.latch := rfl
@[simp] theorem State.tick_halt : (s.tick).halt = s.halt := rfl
@[simp] theorem State.tick_reply : (s.tick).reply = s.reply := rfl
@[simp] theorem State.tick_draws : (s.tick).draws = s.draws := rfl
@[simp] theorem State.tick_host : (s.tick).host = s.host := rfl
@[simp] theorem State.tick_schedule : (s.tick).schedule = s.schedule := rfl

/-! ## setKey -/

@[simp] theorem State.setKey_mem (k : Key) : (s.setKey k).mem = s.mem := rfl
@[simp] theorem State.setKey_v (k : Key) : (s.setKey k).v = s.v := rfl
@[simp] theorem State.setKey_i (k : Key) : (s.setKey k).i = s.i := rfl
@[simp] theorem State.setKey_pc (k : Key) : (s.setKey k).pc = s.pc := rfl
@[simp] theorem State.setKey_stack (k : Key) : (s.setKey k).stack = s.stack := rfl
@[simp] theorem State.setKey_sp (k : Key) : (s.setKey k).sp = s.sp := rfl
@[simp] theorem State.setKey_dt (k : Key) : (s.setKey k).dt = s.dt := rfl
@[simp] theorem State.setKey_st (k : Key) : (s.setKey k).st = s.st := rfl
@[simp] theorem State.setKey_fb (k : Key) : (s.setKey k).fb = s.fb := rfl
@[simp] theorem State.setKey_latch (k : Key) : (s.setKey k).latch = some k := rfl
@[simp] theorem State.setKey_halt (k : Key) : (s.setKey k).halt = s.halt := rfl
@[simp] theorem State.setKey_reply (k : Key) : (s.setKey k).reply = s.reply := rfl
@[simp] theorem State.setKey_draws (k : Key) : (s.setKey k).draws = s.draws := rfl
@[simp] theorem State.setKey_host (k : Key) : (s.setKey k).host = s.host := rfl
@[simp] theorem State.setKey_schedule (k : Key) : (s.setKey k).schedule = s.schedule := rfl

/-! ## clearKey -/

@[simp] theorem State.clearKey_mem : (s.clearKey).mem = s.mem := rfl
@[simp] theorem State.clearKey_v : (s.clearKey).v = s.v := rfl
@[simp] theorem State.clearKey_i : (s.clearKey).i = s.i := rfl
@[simp] theorem State.clearKey_pc : (s.clearKey).pc = s.pc := rfl
@[simp] theorem State.clearKey_stack : (s.clearKey).stack = s.stack := rfl
@[simp] theorem State.clearKey_sp : (s.clearKey).sp = s.sp := rfl
@[simp] theorem State.clearKey_dt : (s.clearKey).dt = s.dt := rfl
@[simp] theorem State.clearKey_st : (s.clearKey).st = s.st := rfl
@[simp] theorem State.clearKey_fb : (s.clearKey).fb = s.fb := rfl
@[simp] theorem State.clearKey_latch : (s.clearKey).latch = none := rfl
@[simp] theorem State.clearKey_halt : (s.clearKey).halt = s.halt := rfl
@[simp] theorem State.clearKey_reply : (s.clearKey).reply = s.reply := rfl
@[simp] theorem State.clearKey_draws : (s.clearKey).draws = s.draws := rfl
@[simp] theorem State.clearKey_host : (s.clearKey).host = s.host := rfl
@[simp] theorem State.clearKey_schedule : (s.clearKey).schedule = s.schedule := rfl

/-! ## Reading a register back -/

@[simp] theorem State.getV_setV_same (x : Reg) (b : Byte) : (s.setV x b).getV x = b := by
  simp [State.getV]

theorem State.getV_setV_of_ne {x y : Reg} (b : Byte) (h : y ≠ x) : (s.setV x b).getV y = s.getV y := by
  have hne : x.val ≠ y.val := fun e => h (Fin.ext e.symm)
  simp [State.getV, Vector.getElem_set_ne, hne]

theorem State.getV_setV (x y : Reg) (b : Byte) : (s.setV x b).getV y = if y = x then b else s.getV y := by
  by_cases h : y = x
  · subst h; simp
  · simp [h, State.getV_setV_of_ne]

@[simp] theorem State.getV_completed (pcH : Word) (c : Bool) (x : Reg) : (s.completed pcH c).getV x = s.getV x := rfl
@[simp] theorem State.getV_stalled (x : Reg) : (s.stalled).getV x = s.getV x := rfl
@[simp] theorem State.getV_faulted (f : CoreFault) (x : Reg) : (s.faulted f).getV x = s.getV x := rfl
@[simp] theorem State.getV_replied (r : Reply) (x : Reg) : (s.replied r).getV x = s.getV x := rfl
@[simp] theorem State.getV_tick (x : Reg) : (s.tick).getV x = s.getV x := rfl
@[simp] theorem State.getV_setKey (k : Key) (x : Reg) : (s.setKey k).getV x = s.getV x := rfl
@[simp] theorem State.getV_clearKey (x : Reg) : (s.clearKey).getV x = s.getV x := rfl

/-- Two states with the same registers are told apart by no register. -/
theorem State.v_ext {s t : State} (h : ∀ x, t.getV x = s.getV x) : t.v = s.v := by
  apply Vector.ext
  intro j hj
  exact h ⟨j, hj⟩

end Sys2Proof.Machine
end

