-- ==== Sys2Proof/Laws/Memory.lean ====
section
/-! SUPPORT. Memory: a read after a write, and the canonical form that every operation keeps. -/

namespace Sys2Proof.Machine

@[simp] theorem Memory.read_nil (a : Nat) : Memory.read [] a = Memory.initial a := rfl

theorem Memory.read_cons (c : Host.Cell) (m : Memory) (a : Nat) :
    Memory.read (c :: m) a = if a = c.1 then c.2 else Memory.read m a := rfl

/-! ## Reads -/

theorem Memory.read_unlist (m : Memory) (a b : Nat) :
    (m.unlist a).read b = if b = a then Memory.initial a else m.read b := by
  induction m with
  | nil =>
    by_cases h : b = a
    · subst h; simp [Memory.unlist]
    · simp [Memory.unlist, h]
  | cons c rest ih =>
    unfold Memory.unlist at ih ⊢
    by_cases hc : c.1 = a
    · rw [List.filter_cons_of_neg (by simp [hc]), ih]
      by_cases h : b = a
      · simp [h]
      · simp [h, Memory.read_cons, hc]
    · rw [List.filter_cons_of_pos (by simp [hc]), Memory.read_cons, Memory.read_cons, ih]
      by_cases h : b = a
      · subst h; simp [Ne.symm hc]
      · simp [h]

theorem Memory.unlist_forall_ne (m : Memory) (a : Nat) : ∀ c ∈ m.unlist a, c.1 ≠ a := by
  intro c hc
  simpa using (List.mem_filter.1 hc).2

theorem Memory.read_enlist (m : Memory) (a : Nat) (v : Byte) (b : Nat) (h : ∀ c ∈ m, c.1 ≠ a) :
    (m.enlist a v).read b = if b = a then v else m.read b := by
  induction m with
  | nil => simp [Memory.enlist, Memory.read_cons]
  | cons c rest ih =>
    unfold Memory.enlist
    split
    · simp [Memory.read_cons]
    · rw [Memory.read_cons, ih (fun d hd => h d (List.mem_cons_of_mem _ hd)), Memory.read_cons]
      have hc : c.1 ≠ a := h c List.mem_cons_self
      by_cases hb : b = a
      · subst hb; simp [Ne.symm hc]
      · simp [hb]

/-- The one law of a store: it is read back at its address, and every other address reads as before, whatever the
memory's form. -/
theorem Memory.read_write (m : Memory) (a : Nat) (v : Byte) (b : Nat) :
    (m.write a v).read b = if b = a then v else m.read b := by
  unfold Memory.write
  split
  · next hv =>
    rw [Memory.read_unlist, hv]
  · rw [Memory.read_enlist _ _ _ _ (Memory.unlist_forall_ne m a), Memory.read_unlist]
    by_cases h : b = a <;> simp [h]

@[simp] theorem Memory.read_write_same (m : Memory) (a : Nat) (v : Byte) : (m.write a v).read a = v := by
  simp [Memory.read_write]

theorem Memory.read_write_of_ne (m : Memory) {a b : Nat} (v : Byte) (h : b ≠ a) :
    (m.write a v).read b = m.read b := by
  simp [Memory.read_write, h]

/-- The one law of a run of stores. -/
theorem Memory.read_writeList (m : Memory) (base : Nat) (bytes : List Byte) (a : Nat) :
    (m.writeList base bytes).read a =
      if base ≤ a ∧ a < base + bytes.length then bytes.getD (a - base) 0 else m.read a := by
  induction bytes generalizing m base with
  | nil =>
    have : ¬(base ≤ a ∧ a < base + ([] : List Byte).length) := by simp
    rw [if_neg this]; rfl
  | cons b rest ih =>
    rw [Memory.writeList, ih, Memory.read_write]
    by_cases h0 : a = base
    · subst h0; simp
    · by_cases h : base + 1 ≤ a ∧ a < base + 1 + rest.length
      · have h' : base ≤ a ∧ a < base + (b :: rest).length := by
          simp only [List.length_cons]; omega
        have e : a - base = (a - (base + 1)) + 1 := by omega
        rw [if_pos h, if_pos h', e]; simp
      · have h' : ¬(base ≤ a ∧ a < base + (b :: rest).length) := by
          simp only [List.length_cons]; omega
        rw [if_neg h, if_neg h', if_neg h0]

theorem Memory.read_writeList_of_lt (m : Memory) (base : Nat) (bytes : List Byte) {k : Nat} (h : k < bytes.length) :
    (m.writeList base bytes).read (base + k) = bytes[k] := by
  rw [Memory.read_writeList, if_pos (by omega)]
  simp [List.getD, h]

theorem Memory.read_writeList_of_outside (m : Memory) (base : Nat) (bytes : List Byte) {a : Nat}
    (h : a < base ∨ base + bytes.length ≤ a) : (m.writeList base bytes).read a = m.read a := by
  rw [Memory.read_writeList, if_neg (by omega)]

/-! ## The canonical form -/

theorem Memory.rising_cons (c : Host.Cell) (m : Memory) :
    Memory.rising (c :: m) = true ↔ (∀ d ∈ m, c.1 < d.1) ∧ m.rising = true := by
  simp [Memory.rising]

theorem Memory.wf_iff (m : Memory) :
    m.wf = true ↔ m.rising = true ∧ ∀ c ∈ m, c.1 < Config.memSize ∧ c.2 ≠ Memory.initial c.1 := by
  simp [Memory.wf]

@[simp] theorem Memory.wf_nil : Memory.wf [] = true := rfl

theorem Memory.rising_unlist (m : Memory) (a : Nat) (h : m.rising = true) : (m.unlist a).rising = true := by
  induction m with
  | nil => rfl
  | cons c rest ih =>
    rw [Memory.rising_cons] at h
    unfold Memory.unlist at ih ⊢
    by_cases hc : c.1 = a
    · rw [List.filter_cons_of_neg (by simp [hc])]; exact ih h.2
    · rw [List.filter_cons_of_pos (by simp [hc]), Memory.rising_cons]
      exact ⟨fun d hd => h.1 d (List.mem_filter.1 hd).1, ih h.2⟩

theorem Memory.mem_enlist (m : Memory) (a : Nat) (v : Byte) (c : Host.Cell) :
    c ∈ m.enlist a v ↔ c = (a, v) ∨ c ∈ m := by
  induction m with
  | nil => simp [Memory.enlist]
  | cons d rest ih =>
    unfold Memory.enlist
    split
    · simp
    · simp only [List.mem_cons, ih]; tauto

theorem Memory.rising_enlist (m : Memory) (a : Nat) (v : Byte) (h : m.rising = true) (hne : ∀ c ∈ m, c.1 ≠ a) :
    (m.enlist a v).rising = true := by
  induction m with
  | nil => rfl
  | cons c rest ih =>
    have hr := (Memory.rising_cons c rest).1 h
    unfold Memory.enlist
    split
    · next hlt =>
      rw [Memory.rising_cons]
      refine ⟨fun d hd => ?_, h⟩
      rcases List.mem_cons.1 hd with rfl | hd
      · exact hlt
      · exact Nat.lt_trans hlt (hr.1 d hd)
    · next hge =>
      rw [Memory.rising_cons]
      refine ⟨fun d hd => ?_, ih hr.2 (fun d hd => hne d (List.mem_cons_of_mem _ hd))⟩
      rcases (Memory.mem_enlist _ _ _ _).1 hd with rfl | hd
      · have := hne c List.mem_cons_self
        show c.1 < a
        omega
      · exact hr.1 d hd

/-- A store inside the address space keeps the canonical form. -/
theorem Memory.wf_write (m : Memory) {a : Nat} (v : Byte) (ha : a < Config.memSize) (h : m.wf = true) :
    (m.write a v).wf = true := by
  rw [Memory.wf_iff] at h ⊢
  unfold Memory.write
  split
  · exact ⟨Memory.rising_unlist m a h.1, fun c hc => h.2 c (List.mem_filter.1 hc).1⟩
  · next hv =>
    refine ⟨Memory.rising_enlist _ _ _ (Memory.rising_unlist m a h.1) (Memory.unlist_forall_ne m a), fun c hc => ?_⟩
    rcases (Memory.mem_enlist _ _ _ _).1 hc with rfl | hc
    · exact ⟨ha, hv⟩
    · exact h.2 c (List.mem_filter.1 hc).1

/-- A run of stores inside the address space keeps the canonical form. -/
theorem Memory.wf_writeList (m : Memory) (base : Nat) (bytes : List Byte)
    (hb : base + bytes.length ≤ Config.memSize) (h : m.wf = true) : (m.writeList base bytes).wf = true := by
  induction bytes generalizing m base with
  | nil => exact h
  | cons b rest ih =>
    simp only [List.length_cons] at hb
    exact ih (m.write base b) (base + 1) (by omega) (Memory.wf_write m b (by omega) h)

/-- In the canonical form two memories that read alike everywhere are the same list. -/
theorem Memory.eq_of_read_eq (m n : Memory) (hm : m.wf = true) (hn : n.wf = true)
    (h : ∀ a, m.read a = n.read a) : m = n := by
  have below : ∀ (m : Memory) (a : Nat), (∀ d ∈ m, a < d.1) → m.read a = Memory.initial a := by
    intro m a hlt
    induction m with
    | nil => rfl
    | cons c rest ih =>
      have : a ≠ c.1 := Nat.ne_of_lt (hlt c List.mem_cons_self)
      rw [Memory.read_cons, if_neg this]
      exact ih (fun d hd => hlt d (List.mem_cons_of_mem _ hd))
  induction m generalizing n with
  | nil =>
    cases n with
    | nil => rfl
    | cons d ns =>
      have := h d.1
      rw [Memory.read_cons, if_pos rfl] at this
      exact absurd this.symm (((Memory.wf_iff _).1 hn).2 d List.mem_cons_self).2
  | cons c ms ih =>
    cases n with
    | nil =>
      have := h c.1
      rw [Memory.read_cons, if_pos rfl] at this
      exact absurd this (((Memory.wf_iff _).1 hm).2 c List.mem_cons_self).2
    | cons d ns =>
      have hm' := (Memory.wf_iff _).1 hm
      have hn' := (Memory.wf_iff _).1 hn
      have rm := (Memory.rising_cons c ms).1 hm'.1
      have rn := (Memory.rising_cons d ns).1 hn'.1
      have hcd : c.1 = d.1 := by
        rcases Nat.lt_trichotomy c.1 d.1 with hlt | heq | hgt
        · have e := h c.1
          rw [Memory.read_cons, if_pos rfl, below (d :: ns) c.1 (by
            intro x hx
            rcases List.mem_cons.1 hx with rfl | hx
            · exact hlt
            · exact Nat.lt_trans hlt (rn.1 x hx))] at e
          exact absurd e (hm'.2 c List.mem_cons_self).2
        · exact heq
        · have e := h d.1
          rw [Memory.read_cons d, if_pos rfl, below (c :: ms) d.1 (by
            intro x hx
            rcases List.mem_cons.1 hx with rfl | hx
            · exact hgt
            · exact Nat.lt_trans hgt (rm.1 x hx))] at e
          exact absurd e.symm (hn'.2 d List.mem_cons_self).2
      have hval : c.2 = d.2 := by
        have e := h c.1
        rwa [Memory.read_cons, if_pos rfl, Memory.read_cons, if_pos hcd] at e
      have hrest : ms = ns := by
        refine ih ns ((Memory.wf_iff _).2 ⟨rm.2, fun x hx => hm'.2 x (List.mem_cons_of_mem _ hx)⟩)
          ((Memory.wf_iff _).2 ⟨rn.2, fun x hx => hn'.2 x (List.mem_cons_of_mem _ hx)⟩) (fun a => ?_)
        have e := h a
        rw [Memory.read_cons, Memory.read_cons] at e
        by_cases ha : a = c.1
        · subst ha
          rw [below ms _ rm.1, below ns _ (fun x hx => hcd ▸ rn.1 x hx)]
        · rwa [if_neg ha, if_neg (fun k => ha (k.trans hcd.symm))] at e
      rw [hrest, Prod.ext hcd hval]

end Sys2Proof.Machine
end

