-- ==== Sys2Proof/Laws/Ops.lean ====
section
/-! SUPPORT. One lemma per shared operation, saying everything it can do. -/

namespace Sys2Proof.Machine

/-! ## How a cycle ends -/

theorem advance_eq (s : State) : advance s = .next (s.completed s.pc false) := rfl

theorem skipIf_eq (taken : Bool) (s : State) :
    skipIf taken s = .next (s.completed (if taken then s.pc + 2#16 else s.pc) false) := rfl

theorem branch_eq (target : Word) (s : State) : branch target s = .next (s.completed (target - 2#16) false) := rfl

theorem raise_eq (f : CoreFault) (s : State) : raise f s = .next (s.faulted f) := rfl

theorem stall_eq (s : State) : stall s = .next s.stalled := rfl

/-- The advance undoes the branch's subtraction, for every target (R86). -/
theorem sub_two_add_two (w : Word) : w - 2#16 + 2#16 = w := by
  rw [BitVec.sub_add_cancel]

/-! ## The address check and the fetch -/

/-- All of `base`, …, `base + count - 1` are in memory exactly when the check finds none outside. -/
theorem firstOutside_eq_none_iff (base count : Nat) :
    firstOutside base count = none ↔ ∀ k, k < count → base + k < Config.memSize := by
  simp [firstOutside, List.find?_eq_none]

/-- The check finds the lowest address outside. -/
theorem firstOutside_eq (base count : Nat) :
    firstOutside base count =
      if count = 0 ∨ base + count ≤ Config.memSize then none else some (max base Config.memSize) := by
  induction count with
  | zero => rfl
  | succ n ih =>
    have hs : firstOutside base (n + 1) =
        (firstOutside base n).or (if Config.memSize ≤ base + n then some (base + n) else none) := by
      simp only [firstOutside, List.range_succ, List.map_append, List.find?_append, List.map_cons, List.map_nil]
      congr 1
      by_cases h : Config.memSize ≤ base + n <;> simp [h]
    rw [hs, ih]
    by_cases h1 : n = 0 ∨ base + n ≤ Config.memSize
    · rw [if_pos h1, Option.none_or]
      by_cases h2 : Config.memSize ≤ base + n
      · rw [if_pos h2, if_neg (by omega)]
        congr 1
        omega
      · rw [if_neg h2, if_pos (by omega)]
    · rw [if_neg h1, if_neg (show ¬(n + 1 = 0 ∨ base + (n + 1) ≤ Config.memSize) by omega), Option.some_or]

theorem firstOutside_of_le {base count : Nat} (h : base + count ≤ Config.memSize) : firstOutside base count = none := by
  rw [firstOutside_eq, if_pos (Or.inr h)]

theorem firstOutside_of_lt {base count : Nat} (hc : 0 < count) (h : Config.memSize < base + count) :
    firstOutside base count = some (max base Config.memSize) := by
  rw [firstOutside_eq, if_neg (by omega)]

/-- Everything a fetch can do (R55). -/
theorem State.fetch_eq (s : State) :
    s.fetch = if s.pc.toNat + 2 ≤ Config.memSize then
        .ok (wordOfBytes (s.mem.read s.pc.toNat) (s.mem.read (s.pc.toNat + 1)))
      else .error (.memoryOutOfBounds .fetch (max s.pc.toNat Config.memSize)) := by
  unfold State.fetch
  by_cases h : s.pc.toNat + 2 ≤ Config.memSize
  · rw [firstOutside_of_le h, if_pos h]
  · rw [firstOutside_of_lt (by omega) (by omega), if_neg h]

/-- Everything `checked` can do: run the rest, all addresses being in memory, or raise the lowest one's fault. -/
theorem checked_eq (kind : AccessKind) (base count : Nat) (s : State) (rest : Result) :
    checked kind base count s rest =
      if count = 0 ∨ base + count ≤ Config.memSize then rest
      else .next (s.faulted (.memoryOutOfBounds kind (max base Config.memSize))) := by
  unfold checked
  rw [firstOutside_eq]
  by_cases h : count = 0 ∨ base + count ≤ Config.memSize
  · simp only [if_pos h]
  · simp only [if_neg h, raise_eq]

/-! ## The stack -/

/-- Everything a push can do (R30). -/
theorem State.push_eq_some_iff (s t : State) (w : Word) :
    s.push w = some t ↔ ∃ h : s.sp.val < 16,
      t = { s with stack := s.stack.set s.sp.val w, sp := ⟨s.sp.val + 1, by omega⟩ } := by
  unfold State.push
  split
  · next h => simp [h, eq_comm]
  · next h => simp [h]

theorem State.push_eq_none_iff (s : State) (w : Word) : s.push w = none ↔ s.sp = 16 := by
  have := s.sp.isLt
  unfold State.push
  split
  · simp only [reduceCtorEq, false_iff]; intro h; simp [h] at *
  · simp only [true_iff]; apply Fin.ext; show s.sp.val = 16; omega

/-- Everything a pop can do (R30, R31): no stack entry changes. -/
theorem State.pop_eq_some_iff (s t : State) (w : Word) :
    s.pop = some (w, t) ↔ ∃ h : 0 < s.sp.val,
      w = s.stack[s.sp.val - 1]'(by omega) ∧ t = { s with sp := ⟨s.sp.val - 1, by omega⟩ } := by
  unfold State.pop
  split
  · next h => simp [h, eq_comm]
  · next h => simp [h]

theorem State.pop_eq_none_iff (s : State) : s.pop = none ↔ s.sp = 0 := by
  unfold State.pop
  split
  · next h => simp only [reduceCtorEq, false_iff]; intro e; simp [e] at h
  · next h => simp only [true_iff]; apply Fin.ext; show s.sp.val = 0; omega

/-! ## Registers -/

/-- Everything `loadFrom` can do: the first `count` registers take the bytes, the others keep their values (R185). -/
theorem loadFrom_getElem (m : Memory) (base : Nat) (v : Vector Byte 16) (count : Nat) (j : Nat) (hj : j < 16) :
    (loadFrom m base v count)[j] = if j < count then m.read (base + j) else v[j] := by
  induction count with
  | zero => simp [loadFrom]
  | succ n ih =>
    rw [loadFrom, Vector.getElem_setIfInBounds]
    by_cases h : n = j
    · subst h; simp
    · rw [if_neg h, ih]
      by_cases h1 : j < n
      · rw [if_pos h1, if_pos (by omega)]
      · rw [if_neg h1, if_neg (by omega)]

@[simp] theorem registersUpTo_length (x : Reg) (s : State) : (registersUpTo x s).length = x.val + 1 := by
  simp only [registersUpTo, List.length_take, Vector.length_toList]
  omega

theorem registersUpTo_getElem (x : Reg) (s : State) (k : Nat) (h : k < (registersUpTo x s).length) :
    (registersUpTo x s)[k] = s.v[k]'(by rw [registersUpTo_length] at h; omega) := by
  simp [registersUpTo]

/-- Everything `writeWithFlag` can do under this hardware's order: `VF` ends with the flag (R141). -/
theorem getV_writeWithFlag (x : Reg) (result : Byte) (flag : Bool) (s : State) (j : Reg) :
    (writeWithFlag .flagLast x result flag s).getV j =
      if j = vf then flagByte flag else if j = x then result else s.getV j := by
  simp [writeWithFlag, State.getV_setV]

/-- Under either order only the registers change. -/
theorem writeWithFlag_eq (order : VfOrder) (x : Reg) (result : Byte) (flag : Bool) (s : State) :
    writeWithFlag order x result flag s = { s with v := (writeWithFlag order x result flag s).v } := by
  cases order <;> rfl

@[simp] theorem vfOrder_eq : vfOrder = .flagLast := rfl

theorem flagByte_eq_one_iff (b : Bool) : flagByte b = 1#8 ↔ b = true := by cases b <;> simp [flagByte]

theorem flagByte_eq_zero_iff (b : Bool) : flagByte b = 0#8 ↔ b = false := by cases b <;> simp [flagByte]

/-- A latched key equals a register's value when their numbers agree, which no value above 15 does (R240). -/
theorem keyMatches_iff (latch : Option Key) (b : Byte) :
    keyMatches latch b = true ↔ ∃ k, latch = some k ∧ k.toNat = b.toNat := by
  cases latch with
  | none => simp [keyMatches]
  | some k =>
    simp only [keyMatches, beq_iff_eq, Option.some.injEq, exists_eq_left']
    rw [← BitVec.toNat_inj, BitVec.toNat_setWidth]
    have := k.isLt
    rw [Nat.mod_eq_of_lt (by omega)]

/-! ## The end of a step -/

/-- `mapNext` answers a next state only over a next state. -/
theorem mapNext_eq_next_iff (f : State → State) (r : Result) (t : State) :
    mapNext f r = .next t ↔ ∃ u, r = .next u ∧ t = f u := by
  cases r <;> simp [mapNext, eq_comm]

/-- A step with an operation pending runs it. -/
theorem step_of_pending (s : State) {op : HostOp} {rest : List HostOp} (h : s.host = op :: rest) :
    step s = hostStep op { s with host := rest } := by
  simp only [step, nextStep, h]

/-- A step of a host that only calls for cycles is the core's next cycle, or the stop of a halted core. -/
theorem step_of_cyclesNext (s : State) (h : s.cyclesNext) :
    step s = match s.halt with | some r => .fault (.halted r) | none => cycle s := by
  cases hh : s.halt <;> simp only [step, nextStep, h.1, h.2, hh]

/-- A step of a host that goes on without end, nothing else pending, is the step with its next operation pending. -/
theorem step_of_free (s : State) {n : Nat} (hh : s.host = []) (hs : s.schedule = .free n) :
    step s = step { s with host := [Config.hostOp n], schedule := .free (n + 1) } := by
  simp only [step, nextStep, hh, hs]

/-- A pending `Cycle(r)` of a core that has not halted is a cycle, the operation then no longer pending. -/
theorem step_of_pending_cycle (s : State) {r : Byte} {rest : List HostOp} (hh : s.halt = none)
    (h : s.host = .cycle r :: rest) : step s = mapNext (fun t => { t with host := rest }) (cycle s) := by
  have hs : ({ s with host := .cycle r :: rest } : State) = s := by rw [← h]
  rw [step_of_pending s h]
  simp only [hostStep]
  split
  · next hr => simp [hh] at hr
  · rw [hs]

/-- Everything a cycle can do: the fetch's fault, the instruction, or the no-op of an unknown word (R85, R83). -/
theorem cycle_cases (s : State) :
    (∃ f, s.fetch = .error f ∧ cycle s = .next (s.faulted f)) ∨
    (∃ w i, s.fetch = .ok w ∧ decodeWord w = some i ∧ cycle s = exec i s) ∨
    (∃ w, s.fetch = .ok w ∧ decodeWord w = none ∧ cycle s = .next (s.completed s.pc false)) := by
  unfold cycle
  split
  · next f hf => exact .inl ⟨f, hf, rfl⟩
  · next w hw =>
    split
    · next i hi => exact .inr (.inl ⟨w, i, hw, hi, rfl⟩)
    · next hn => exact .inr (.inr ⟨w, hw, hn, rfl⟩)

end Sys2Proof.Machine
end

