-- ==== Sys2Proof/Laws/Display.lean ====
section
/-! SUPPORT. The sprite blitter: what one column, one row and a whole blit can do to a cell and to the collision. -/

namespace Sys2Proof.Machine

/-- Cells of different pixels are different, and each cell is some pixel's. -/
theorem cellIndex_inj {px qx : Fin 64} {py qy : Fin 32} (h : (cellIndex px py).val = (cellIndex qx qy).val) :
    px = qx ∧ py = qy := by
  simp only [cellIndex] at h
  exact ⟨Fin.ext (by omega), Fin.ext (by omega)⟩

/-- A column number of a row is told by the pixel it lands on (R217). -/
theorem columnTarget_inj (x0 : Byte) {a b : Nat} (ha : a < 8) (hb : b < 8)
    (h : columnTarget x0 a = columnTarget x0 b) : a = b := by
  have := Fin.val_eq_of_eq h
  simp only [columnTarget] at this
  omega

theorem toggleCell_fb (k : Fin 2048) (acc : Blit) (j : Nat) (hj : j < 2048) :
    (toggleCell k acc).fb[j] = if k.val = j then !acc.fb[j] else acc.fb[j] := by
  simp only [toggleCell, Vector.getElem_set]
  split
  · next h => simp [h]
  · rfl

/-- One of the first `cols` columns of the row `b` puts a 1 bit on the pixel column `px`. -/
def columnsHit (b : Byte) (x0 : Byte) (cols : Nat) (px : Fin 64) : Prop :=
  ∃ col, col < cols ∧ b.getLsbD (7 - col) = true ∧ columnTarget x0 col = px

theorem columnsHit_succ (b x0 : Byte) (n : Nat) (px : Fin 64) :
    columnsHit b x0 (n + 1) px ↔ columnsHit b x0 n px ∨ (b.getLsbD (7 - n) = true ∧ columnTarget x0 n = px) := by
  constructor
  · rintro ⟨col, hlt, hb, ht⟩
    by_cases h : col = n
    · subst h; exact .inr ⟨hb, ht⟩
    · exact .inl ⟨col, by omega, hb, ht⟩
  · rintro (⟨col, hlt, hb, ht⟩ | ⟨hb, ht⟩)
    · exact ⟨col, by omega, hb, ht⟩
    · exact ⟨n, by omega, hb, ht⟩

/-- What the first `cols` columns of a row do: each pixel of the row that a 1 bit lands on is inverted, once; a collision is
recorded when such a pixel was on; no other pixel changes (R212, R213, R215). -/
theorem blitColumns_spec (b x0 : Byte) (py : Fin 32) (cols : Nat) (hc : cols ≤ 8) (acc : Blit) :
    (∀ (px : Fin 64) (qy : Fin 32),
      (¬(qy = py ∧ columnsHit b x0 cols px) →
        (blitColumns b x0 py cols acc).fb[(cellIndex px qy).val] = acc.fb[(cellIndex px qy).val]) ∧
      (qy = py ∧ columnsHit b x0 cols px →
        (blitColumns b x0 py cols acc).fb[(cellIndex px qy).val] = !acc.fb[(cellIndex px qy).val])) ∧
    ((blitColumns b x0 py cols acc).collided = true ↔
      acc.collided = true ∨ ∃ px, columnsHit b x0 cols px ∧ acc.fb[(cellIndex px py).val] = true) := by
  induction cols with
  | zero => simp [blitColumns, columnsHit]
  | succ n ih =>
    obtain ⟨ihfb, ihc⟩ := ih (by omega)
    have fresh : ¬columnsHit b x0 n (columnTarget x0 n) := by
      rintro ⟨col, hlt, -, ht⟩
      have := columnTarget_inj x0 (by omega) (by omega) ht
      omega
    unfold blitColumns
    by_cases hb : b.getLsbD (7 - n) = true
    · simp only [hb, if_true]
      refine ⟨fun px qy => ?_, ?_⟩
      · rw [toggleCell_fb, columnsHit_succ]
        by_cases hk : (cellIndex (columnTarget x0 n) py).val = (cellIndex px qy).val
        · obtain ⟨e1, e2⟩ := cellIndex_inj hk
          subst e1; subst e2
          have := (ihfb (columnTarget x0 n) py).1 (by tauto)
          rw [if_pos hk, this]
          exact ⟨fun h => absurd ⟨rfl, .inr ⟨hb, rfl⟩⟩ h, fun _ => rfl⟩
        · have hne : ¬(qy = py ∧ columnTarget x0 n = px) := by
            rintro ⟨rfl, rfl⟩; exact hk rfl
          rw [if_neg hk]
          exact ⟨fun h => (ihfb px qy).1 (by tauto), fun h => (ihfb px qy).2 (by tauto)⟩
      · have e := (ihfb (columnTarget x0 n) py).1 (by tauto)
        simp only [toggleCell, Bool.or_eq_true, ihc, e, columnsHit_succ, hb, true_and, or_assoc]
        constructor
        · rintro (h | ⟨px, h1, h2⟩ | h)
          · exact .inl h
          · exact .inr ⟨px, .inl h1, h2⟩
          · exact .inr ⟨_, .inr rfl, h⟩
        · rintro (h | ⟨px, h1 | rfl, h2⟩)
          · exact .inl h
          · exact .inr (.inl ⟨px, h1, h2⟩)
          · exact .inr (.inr h2)
    · have hh : ∀ px, columnsHit b x0 (n + 1) px ↔ columnsHit b x0 n px := by
        intro px; rw [columnsHit_succ]; tauto
      simp only [hb, hh]
      exact ⟨ihfb, ihc⟩

/-- One of the first `height` rows of a sprite, drawn under the policy, puts a 1 bit on the pixel (px, py). -/
def rowsHit (policy : RowPolicy) (m : Memory) (x0 y0 : Byte) (src height : Nat) (px : Fin 64) (py : Fin 32) : Prop :=
  ∃ row, row < height ∧ rowTarget policy (y0.toNat + row) = some py ∧ columnsHit (m.read (src + row)) x0 8 px

theorem rowsHit_succ (policy : RowPolicy) (m : Memory) (x0 y0 : Byte) (src n : Nat) (px : Fin 64) (py : Fin 32) :
    rowsHit policy m x0 y0 src (n + 1) px py ↔ rowsHit policy m x0 y0 src n px py ∨
      (rowTarget policy (y0.toNat + n) = some py ∧ columnsHit (m.read (src + n)) x0 8 px) := by
  constructor
  · rintro ⟨row, hlt, ht, hc⟩
    by_cases h : row = n
    · subst h; exact .inr ⟨ht, hc⟩
    · exact .inl ⟨row, by omega, ht, hc⟩
  · rintro (⟨row, hlt, ht, hc⟩ | ⟨ht, hc⟩)
    · exact ⟨row, by omega, ht, hc⟩
    · exact ⟨n, by omega, ht, hc⟩

/-- The rows of one sprite that are drawn land on different screen rows, under either policy (R217). -/
theorem rowTarget_inj (policy : RowPolicy) (y0 : Byte) {a b : Nat} (ha : a < 16) (hb : b < 16) {py : Fin 32}
    (h1 : rowTarget policy (y0.toNat + a) = some py) (h2 : rowTarget policy (y0.toNat + b) = some py) : a = b := by
  cases policy with
  | clip =>
    simp only [rowTarget] at h1 h2
    split at h1 <;> split at h2 <;> simp at h1 h2
    have e1 := congrArg Fin.val h1
    have e2 := congrArg Fin.val h2
    simp only at e1 e2
    omega
  | wrap =>
    simp only [rowTarget, Option.some.injEq] at h1 h2
    have e1 := congrArg Fin.val h1
    have e2 := congrArg Fin.val h2
    simp only at e1 e2
    omega

theorem blitRows_succ_of_none {policy : RowPolicy} {y0 : Byte} {n : Nat}
    (ht : rowTarget policy (y0.toNat + n) = none) (m : Memory) (x0 : Byte) (src : Nat) (acc : Blit) :
    blitRows policy m x0 y0 src (n + 1) acc = blitRows policy m x0 y0 src n acc := by
  simp only [blitRows, ht]

theorem blitRows_succ_of_some {policy : RowPolicy} {y0 : Byte} {n : Nat} {py : Fin 32}
    (ht : rowTarget policy (y0.toNat + n) = some py) (m : Memory) (x0 : Byte) (src : Nat) (acc : Blit) :
    blitRows policy m x0 y0 src (n + 1) acc =
      blitColumns (m.read (src + n)) x0 py 8 (blitRows policy m x0 y0 src n acc) := by
  simp only [blitRows, ht]

/-- What the first `height` rows of a sprite do: each pixel a drawn 1 bit lands on is inverted, once; the collision is
recorded when such a pixel was on before; no other pixel changes (R212 to R217). -/
theorem blitRows_spec (policy : RowPolicy) (m : Memory) (x0 y0 : Byte) (src height : Nat) (hh : height ≤ 16)
    (acc : Blit) :
    (∀ (px : Fin 64) (py : Fin 32),
      (¬rowsHit policy m x0 y0 src height px py →
        (blitRows policy m x0 y0 src height acc).fb[(cellIndex px py).val] = acc.fb[(cellIndex px py).val]) ∧
      (rowsHit policy m x0 y0 src height px py →
        (blitRows policy m x0 y0 src height acc).fb[(cellIndex px py).val] = !acc.fb[(cellIndex px py).val])) ∧
    ((blitRows policy m x0 y0 src height acc).collided = true ↔
      acc.collided = true ∨
        ∃ px py, rowsHit policy m x0 y0 src height px py ∧ acc.fb[(cellIndex px py).val] = true) := by
  induction height with
  | zero => simp [blitRows, rowsHit]
  | succ n ih =>
    obtain ⟨ihfb, ihc⟩ := ih (by omega)
    obtain ht | ⟨py0, ht⟩ : rowTarget policy (y0.toNat + n) = none ∨
        ∃ py0, rowTarget policy (y0.toNat + n) = some py0 := by
      cases h : rowTarget policy (y0.toNat + n) <;> simp
    · rw [blitRows_succ_of_none ht]
      have hh' : ∀ px py, rowsHit policy m x0 y0 src (n + 1) px py ↔ rowsHit policy m x0 y0 src n px py := by
        intro px py; rw [rowsHit_succ]; simp [ht]
      simp only [hh']
      exact ⟨ihfb, ihc⟩
    · rw [blitRows_succ_of_some ht]
      have hh' : ∀ px py, rowsHit policy m x0 y0 src (n + 1) px py ↔
          rowsHit policy m x0 y0 src n px py ∨ (py = py0 ∧ columnsHit (m.read (src + n)) x0 8 px) := by
        intro px py; rw [rowsHit_succ, ht]; simp [eq_comm]
      have fresh : ∀ px, ¬rowsHit policy m x0 y0 src n px py0 := by
        rintro px ⟨row, hlt, hrow, -⟩
        have := rowTarget_inj policy y0 (by omega) (by omega) hrow ht
        omega
      obtain ⟨cfb, cc⟩ := blitColumns_spec (m.read (src + n)) x0 py0 8 (le_refl 8)
        (blitRows policy m x0 y0 src n acc)
      refine ⟨fun px py => ?_, ?_⟩
      · rw [hh']
        by_cases hnew : py = py0 ∧ columnsHit (m.read (src + n)) x0 8 px
        · rw [(cfb px py).2 hnew]
          obtain ⟨rfl, hcol⟩ := hnew
          rw [(ihfb px py).1 (fresh px)]
          exact ⟨fun h => absurd (.inr ⟨rfl, hcol⟩) h, fun _ => rfl⟩
        · rw [(cfb px py).1 hnew]
          exact ⟨fun h => (ihfb px py).1 (by tauto), fun h => (ihfb px py).2 (by tauto)⟩
      · rw [cc, ihc]
        simp only [hh', or_assoc]
        have keep : ∀ px, (blitRows policy m x0 y0 src n acc).fb[(cellIndex px py0).val] =
            acc.fb[(cellIndex px py0).val] := fun px => (ihfb px py0).1 (fresh px)
        simp only [keep]
        constructor
        · rintro (h | ⟨px, py, h1, h2⟩ | ⟨px, h1, h2⟩)
          · exact .inl h
          · exact .inr ⟨px, py, .inl h1, h2⟩
          · exact .inr ⟨px, py0, .inr ⟨rfl, h1⟩, h2⟩
        · rintro (h | ⟨px, py, h1 | ⟨rfl, h1⟩, h2⟩)
          · exact .inl h
          · exact .inr (.inl ⟨px, py, h1, h2⟩)
          · exact .inr (.inr ⟨px, h1, h2⟩)

end Sys2Proof.Machine
end

