-- ==== Sys2Proof/Laws/Encoding.lean ====
section
/-! SUPPORT. The fields and the masked bits of a word put together from its parts (R71, R72, R79). -/

namespace Sys2Proof

/-! ## A word's number, and its fields as numbers (R72) -/

theorem fieldsOf_addr_toNat (w : Word) : (fieldsOf w).addr.toNat = w.toNat % 4096 := by
  simp [fieldsOf]

theorem fieldsOf_kk_toNat (w : Word) : (fieldsOf w).kk.toNat = w.toNat % 256 := by
  simp [fieldsOf]

theorem fieldsOf_nibble_toNat (w : Word) : (fieldsOf w).nibble.toNat = w.toNat % 16 := by
  simp [fieldsOf]

theorem fieldsOf_x_val (w : Word) : (fieldsOf w).x.val = w.toNat / 256 % 16 := by
  simp [fieldsOf, Nat.shiftRight_eq_div_pow]

theorem fieldsOf_y_val (w : Word) : (fieldsOf w).y.val = w.toNat / 16 % 16 := by
  simp [fieldsOf, Nat.shiftRight_eq_div_pow]

theorem append_toNat {m n : Nat} (a : BitVec m) (b : BitVec n) : (a ++ b).toNat = a.toNat * 2 ^ n + b.toNat := by
  rw [BitVec.toNat_append, ← Nat.shiftLeft_add_eq_or_of_lt b.isLt, Nat.shiftLeft_eq]

theorem regBits_toNat (x : Reg) : (regBits x).toNat = x.val := by
  simp [regBits]

theorem encNNN_toNat (op : BitVec 4) (addr : Addr12) : (encNNN op addr).toNat = op.toNat * 4096 + addr.toNat :=
  append_toNat op addr

theorem encXKK_toNat (op : BitVec 4) (x : Reg) (kk : Byte) :
    (encXKK op x kk).toNat = op.toNat * 4096 + x.val * 256 + kk.toNat := by
  show (op ++ regBits x ++ kk : BitVec (4 + 4 + 8)).toNat = _
  rw [append_toNat, append_toNat, regBits_toNat]
  ring

theorem encX_toNat (op : BitVec 4) (x : Reg) (fn : Byte) :
    (encX op x fn).toNat = op.toNat * 4096 + x.val * 256 + fn.toNat := encXKK_toNat op x fn

theorem encXYN_toNat (op : BitVec 4) (x y : Reg) (n : Nibble) :
    (encXYN op x y n).toNat = op.toNat * 4096 + x.val * 256 + y.val * 16 + n.toNat := by
  show (op ++ regBits x ++ regBits y ++ n : BitVec (4 + 4 + 4 + 4)).toNat = _
  rw [append_toNat, append_toNat, append_toNat, regBits_toNat, regBits_toNat]
  ring

/-! ## The fields of each format -/

@[simp] theorem fieldsOf_encNNN_addr (op : BitVec 4) (addr : Addr12) : (fieldsOf (encNNN op addr)).addr = addr := by
  apply BitVec.eq_of_toNat_eq
  rw [fieldsOf_addr_toNat, encNNN_toNat]
  have := addr.isLt
  omega

@[simp] theorem fieldsOf_encXKK_x (op : BitVec 4) (x : Reg) (kk : Byte) : (fieldsOf (encXKK op x kk)).x = x := by
  apply Fin.ext
  rw [fieldsOf_x_val, encXKK_toNat]
  have := kk.isLt
  omega

@[simp] theorem fieldsOf_encXKK_kk (op : BitVec 4) (x : Reg) (kk : Byte) : (fieldsOf (encXKK op x kk)).kk = kk := by
  apply BitVec.eq_of_toNat_eq
  rw [fieldsOf_kk_toNat, encXKK_toNat]
  have := kk.isLt
  omega

@[simp] theorem fieldsOf_encX_x (op : BitVec 4) (x : Reg) (fn : Byte) : (fieldsOf (encX op x fn)).x = x :=
  fieldsOf_encXKK_x op x fn

@[simp] theorem fieldsOf_encXYN_x (op : BitVec 4) (x y : Reg) (n : Nibble) : (fieldsOf (encXYN op x y n)).x = x := by
  apply Fin.ext
  rw [fieldsOf_x_val, encXYN_toNat]
  have := n.isLt
  omega

@[simp] theorem fieldsOf_encXYN_y (op : BitVec 4) (x y : Reg) (n : Nibble) : (fieldsOf (encXYN op x y n)).y = y := by
  apply Fin.ext
  rw [fieldsOf_y_val, encXYN_toNat]
  have := n.isLt
  omega

@[simp] theorem fieldsOf_encXYN_nibble (op : BitVec 4) (x y : Reg) (n : Nibble) :
    (fieldsOf (encXYN op x y n)).nibble = n := by
  apply BitVec.eq_of_toNat_eq
  rw [fieldsOf_nibble_toNat, encXYN_toNat]
  have := n.isLt
  omega

/-! ## The masked bits of each format (R79) -/

@[simp] theorem encNNN_and_mask (op : BitVec 4) (addr : Addr12) : encNNN op addr &&& 0xF000#16 = encNNN op 0#12 := by
  have h : (0xF000#16 : BitVec (4 + 12)) = 0xF#4 ++ 0x000#12 := rfl
  unfold encNNN
  show (op ++ addr) &&& (0xF000#16 : BitVec (4 + 12)) = op ++ 0#12
  rw [h, BitVec.and_append, BitVec.and_zero]
  congr 1
  exact BitVec.and_allOnes

@[simp] theorem encXKK_and_mask (op : BitVec 4) (x : Reg) (kk : Byte) :
    encXKK op x kk &&& 0xF000#16 = encNNN op 0#12 := by
  have h : encXKK op x kk = encNNN op (regBits x ++ kk) := by
    unfold encXKK encNNN
    exact BitVec.append_assoc
  rw [h, encNNN_and_mask]

@[simp] theorem encXYN_and_mask (op : BitVec 4) (x y : Reg) (n : Nibble) :
    encXYN op x y n &&& 0xF000#16 = encNNN op 0#12 := by
  have h : encXYN op x y n = encXKK op x (regBits y ++ n) := by
    unfold encXYN encXKK
    exact BitVec.append_assoc
  rw [h, encXKK_and_mask]

@[simp] theorem encX_and_mask (op : BitVec 4) (x : Reg) (fn : Byte) :
    encX op x fn &&& 0xF0FF#16 = encX op 0 fn := by
  have h : (0xF0FF#16 : BitVec (4 + 4 + 8)) = (0xF#4 ++ 0x0#4) ++ 0xFF#8 := rfl
  unfold encX
  show (op ++ regBits x ++ fn) &&& (0xF0FF#16 : BitVec (4 + 4 + 8)) = op ++ regBits 0 ++ fn
  rw [h, BitVec.and_append, BitVec.and_append, BitVec.and_zero]
  congr 1
  · congr 1; exact BitVec.and_allOnes
  · exact BitVec.and_allOnes

@[simp] theorem encXYN_and_mask_function (op : BitVec 4) (x y : Reg) (n : Nibble) :
    encXYN op x y n &&& 0xF00F#16 = encXYN op 0 0 n := by
  have h : (0xF00F#16 : BitVec (4 + 4 + 4 + 4)) = ((0xF#4 ++ 0x0#4) ++ 0x0#4) ++ 0xF#4 := rfl
  unfold encXYN
  show (op ++ regBits x ++ regBits y ++ n) &&& (0xF00F#16 : BitVec (4 + 4 + 4 + 4)) =
    op ++ regBits 0 ++ regBits 0 ++ n
  rw [h, BitVec.and_append, BitVec.and_append, BitVec.and_append, BitVec.and_zero,
    BitVec.and_zero]
  congr 1
  · congr 1; congr 1; exact BitVec.and_allOnes
  · exact BitVec.and_allOnes

/-! ## Resolving -/

/-- A word decodes by the first entry that covers it, and by no entry of the table where none does (R77). -/
theorem decodeWord_eq (w : Word) :
    decodeWord w = (table.find? (fun r => r.covers w)).map (fun r => r.kind.build (fieldsOf w)) := by
  simp [decodeWord, resolve, Option.map_map, Function.comp_def]

theorem decodeWord_eq_none_iff (w : Word) : decodeWord w = none ↔ ∀ r ∈ table, r.covers w = false := by
  simp [decodeWord_eq]

/-- Every kind stands in the table exactly once. -/
theorem table_kinds_nodup : (table.map Row.kind).Nodup := by decide

theorem table_length : table.length = 35 := by decide

end Sys2Proof
end

