-- ==== Sys2Proof/Laws/Exec.lean ====
section
/-! SUPPORT. The three ways an instruction's cycle can end, said once. -/

namespace Sys2Proof.Machine

/-- Every instruction, in every state, completes without touching `halt` or the host's operations, or stalls, or takes a
fault; the last two from the unchanged state. -/
theorem exec_cases (i : Instr) (s : State) :
    (∃ (u : State) (pcH : Word) (c : Bool), exec i s = .next (u.completed pcH c) ∧ u.halt = s.halt ∧ u.host = s.host ∧
      u.schedule = s.schedule) ∨
    exec i s = .next s.stalled ∨
    (∃ f : CoreFault, exec i s = .next (s.faulted f)) := by
  cases i
  case sys addr => exact .inr (.inr ⟨_, rfl⟩)
  case ret =>
    simp only [exec, execRet]
    split
    · exact .inr (.inr ⟨_, rfl⟩)
    · next w s' h =>
      obtain ⟨-, -, rfl⟩ := (State.pop_eq_some_iff s s' w).1 h
      exact .inl ⟨_, _, _, rfl, rfl, rfl, rfl⟩
  case call addr =>
    simp only [exec, execCall]
    split
    · exact .inr (.inr ⟨_, rfl⟩)
    · next s' h =>
      obtain ⟨-, rfl⟩ := (State.push_eq_some_iff s s' s.pc).1 h
      exact .inl ⟨_, _, _, rfl, rfl, rfl, rfl⟩
  case ldVxK x =>
    simp only [exec, execLdVxK]
    split
    · exact .inr (.inl rfl)
    · exact .inl ⟨_, _, _, rfl, rfl, rfl, rfl⟩
  case drw x y n =>
    simp only [exec, execDrw, checked_eq]
    split
    · exact .inl ⟨_, _, _, rfl, rfl, rfl, rfl⟩
    · exact .inr (.inr ⟨_, rfl⟩)
  case ldB x =>
    simp only [exec, execLdB, checked_eq]
    split
    · exact .inl ⟨_, _, _, rfl, rfl, rfl, rfl⟩
    · exact .inr (.inr ⟨_, rfl⟩)
  case storeRegs x =>
    simp only [exec, execStoreRegs, checked_eq]
    split
    · exact .inl ⟨_, _, _, rfl, rfl, rfl, rfl⟩
    · exact .inr (.inr ⟨_, rfl⟩)
  case loadRegs x =>
    simp only [exec, execLoadRegs, checked_eq]
    split
    · exact .inl ⟨_, _, _, rfl, rfl, rfl, rfl⟩
    · exact .inr (.inr ⟨_, rfl⟩)
  all_goals exact .inl ⟨_, _, _, rfl, rfl, rfl, rfl⟩

/-- So no instruction ever answers a fault or a refusal: the core's own faults are next states (R271). -/
theorem exec_is_next (i : Instr) (s : State) : ∃ t, exec i s = .next t := by
  rcases exec_cases i s with ⟨_, _, _, h, -⟩ | h | ⟨_, h⟩ <;> exact ⟨_, h⟩

end Sys2Proof.Machine
end

