-- ==== Sys2Proof/Laws/PerInstr.lean ====
section
/-! SUPPORT. A statement about every instruction as syntax, one lemma per constructor: the encoding of an instruction is
covered by its own row of the instruction table (R76, R79), and that row reads the instruction back from it. -/

namespace Sys2Proof.Laws.RowMatch

/-- The word of the instruction is covered by the row of its kind, which builds the instruction from the word's fields. -/
def Statement (i : Instr) : Prop :=
  ∃ r ∈ table, r.covers (encode i) = true ∧ r.kind.build (fieldsOf (encode i)) = i

/-- A row of the table that covers the word and builds the instruction shows the statement. -/
theorem of_row {i : Instr} (r : Row) (hr : r ∈ table) (hc : encode i &&& r.mask = r.pattern)
    (hb : r.kind.build (fieldsOf (encode i)) = i) : Statement i :=
  ⟨r, hr, by simpa [Row.covers] using hc, hb⟩

theorem cls : Statement (.cls) :=
  of_row ⟨.cls, 0xFFFF, 0x00E0⟩ (by decide) (by decide) (by simp [Kind.build])

theorem ret : Statement (.ret) :=
  of_row ⟨.ret, 0xFFFF, 0x00EE⟩ (by decide) (by decide) (by simp [Kind.build])

theorem sys (addr : Addr12) : Statement (.sys addr) :=
  of_row ⟨.sys, 0xF000, 0x0000⟩ (by decide) (by simp [encode]; decide) (by simp [encode, Kind.build])

theorem jp (addr : Addr12) : Statement (.jp addr) :=
  of_row ⟨.jp, 0xF000, 0x1000⟩ (by decide) (by simp [encode]; decide) (by simp [encode, Kind.build])

theorem call (addr : Addr12) : Statement (.call addr) :=
  of_row ⟨.call, 0xF000, 0x2000⟩ (by decide) (by simp [encode]; decide) (by simp [encode, Kind.build])

theorem seImm (x : Reg) (kk : Byte) : Statement (.seImm x kk) :=
  of_row ⟨.seImm, 0xF000, 0x3000⟩ (by decide) (by simp [encode]; decide) (by simp [encode, Kind.build])

theorem sneImm (x : Reg) (kk : Byte) : Statement (.sneImm x kk) :=
  of_row ⟨.sneImm, 0xF000, 0x4000⟩ (by decide) (by simp [encode]; decide) (by simp [encode, Kind.build])

theorem seReg (x y : Reg) : Statement (.seReg x y) :=
  of_row ⟨.seReg, 0xF00F, 0x5000⟩ (by decide) (by simp [encode]; decide) (by simp [encode, Kind.build])

theorem ldImm (x : Reg) (kk : Byte) : Statement (.ldImm x kk) :=
  of_row ⟨.ldImm, 0xF000, 0x6000⟩ (by decide) (by simp [encode]; decide) (by simp [encode, Kind.build])

theorem addImm (x : Reg) (kk : Byte) : Statement (.addImm x kk) :=
  of_row ⟨.addImm, 0xF000, 0x7000⟩ (by decide) (by simp [encode]; decide) (by simp [encode, Kind.build])

theorem ldReg (x y : Reg) : Statement (.ldReg x y) :=
  of_row ⟨.ldReg, 0xF00F, 0x8000⟩ (by decide) (by simp [encode]; decide) (by simp [encode, Kind.build])

theorem orReg (x y : Reg) : Statement (.orReg x y) :=
  of_row ⟨.orReg, 0xF00F, 0x8001⟩ (by decide) (by simp [encode]; decide) (by simp [encode, Kind.build])

theorem andReg (x y : Reg) : Statement (.andReg x y) :=
  of_row ⟨.andReg, 0xF00F, 0x8002⟩ (by decide) (by simp [encode]; decide) (by simp [encode, Kind.build])

theorem xorReg (x y : Reg) : Statement (.xorReg x y) :=
  of_row ⟨.xorReg, 0xF00F, 0x8003⟩ (by decide) (by simp [encode]; decide) (by simp [encode, Kind.build])

theorem addReg (x y : Reg) : Statement (.addReg x y) :=
  of_row ⟨.addReg, 0xF00F, 0x8004⟩ (by decide) (by simp [encode]; decide) (by simp [encode, Kind.build])

theorem sub (x y : Reg) : Statement (.sub x y) :=
  of_row ⟨.sub, 0xF00F, 0x8005⟩ (by decide) (by simp [encode]; decide) (by simp [encode, Kind.build])

theorem shr (x y : Reg) : Statement (.shr x y) :=
  of_row ⟨.shr, 0xF00F, 0x8006⟩ (by decide) (by simp [encode]; decide) (by simp [encode, Kind.build])

theorem subn (x y : Reg) : Statement (.subn x y) :=
  of_row ⟨.subn, 0xF00F, 0x8007⟩ (by decide) (by simp [encode]; decide) (by simp [encode, Kind.build])

theorem shl (x y : Reg) : Statement (.shl x y) :=
  of_row ⟨.shl, 0xF00F, 0x800E⟩ (by decide) (by simp [encode]; decide) (by simp [encode, Kind.build])

theorem sneReg (x y : Reg) : Statement (.sneReg x y) :=
  of_row ⟨.sneReg, 0xF00F, 0x9000⟩ (by decide) (by simp [encode]; decide) (by simp [encode, Kind.build])

theorem ldI (addr : Addr12) : Statement (.ldI addr) :=
  of_row ⟨.ldI, 0xF000, 0xA000⟩ (by decide) (by simp [encode]; decide) (by simp [encode, Kind.build])

theorem jpV0 (addr : Addr12) : Statement (.jpV0 addr) :=
  of_row ⟨.jpV0, 0xF000, 0xB000⟩ (by decide) (by simp [encode]; decide) (by simp [encode, Kind.build])

theorem rnd (x : Reg) (kk : Byte) : Statement (.rnd x kk) :=
  of_row ⟨.rnd, 0xF000, 0xC000⟩ (by decide) (by simp [encode]; decide) (by simp [encode, Kind.build])

theorem drw (x y : Reg) (n : Nibble) : Statement (.drw x y n) :=
  of_row ⟨.drw, 0xF000, 0xD000⟩ (by decide) (by simp [encode]; decide) (by simp [encode, Kind.build])

theorem skp (x : Reg) : Statement (.skp x) :=
  of_row ⟨.skp, 0xF0FF, 0xE09E⟩ (by decide) (by simp [encode]; decide) (by simp [encode, Kind.build])

theorem sknp (x : Reg) : Statement (.sknp x) :=
  of_row ⟨.sknp, 0xF0FF, 0xE0A1⟩ (by decide) (by simp [encode]; decide) (by simp [encode, Kind.build])

theorem ldVxDT (x : Reg) : Statement (.ldVxDT x) :=
  of_row ⟨.ldVxDT, 0xF0FF, 0xF007⟩ (by decide) (by simp [encode]; decide) (by simp [encode, Kind.build])

theorem ldVxK (x : Reg) : Statement (.ldVxK x) :=
  of_row ⟨.ldVxK, 0xF0FF, 0xF00A⟩ (by decide) (by simp [encode]; decide) (by simp [encode, Kind.build])

theorem ldDTVx (x : Reg) : Statement (.ldDTVx x) :=
  of_row ⟨.ldDTVx, 0xF0FF, 0xF015⟩ (by decide) (by simp [encode]; decide) (by simp [encode, Kind.build])

theorem ldSTVx (x : Reg) : Statement (.ldSTVx x) :=
  of_row ⟨.ldSTVx, 0xF0FF, 0xF018⟩ (by decide) (by simp [encode]; decide) (by simp [encode, Kind.build])

theorem addI (x : Reg) : Statement (.addI x) :=
  of_row ⟨.addI, 0xF0FF, 0xF01E⟩ (by decide) (by simp [encode]; decide) (by simp [encode, Kind.build])

theorem ldF (x : Reg) : Statement (.ldF x) :=
  of_row ⟨.ldF, 0xF0FF, 0xF029⟩ (by decide) (by simp [encode]; decide) (by simp [encode, Kind.build])

theorem ldB (x : Reg) : Statement (.ldB x) :=
  of_row ⟨.ldB, 0xF0FF, 0xF033⟩ (by decide) (by simp [encode]; decide) (by simp [encode, Kind.build])

theorem storeRegs (x : Reg) : Statement (.storeRegs x) :=
  of_row ⟨.storeRegs, 0xF0FF, 0xF055⟩ (by decide) (by simp [encode]; decide) (by simp [encode, Kind.build])

theorem loadRegs (x : Reg) : Statement (.loadRegs x) :=
  of_row ⟨.loadRegs, 0xF0FF, 0xF065⟩ (by decide) (by simp [encode]; decide) (by simp [encode, Kind.build])

end Sys2Proof.Laws.RowMatch
end

