-- ==== Sys2Proof/Tests/Slice0.lean ====
section
/-! SUPPORT. The model's own tests: ill-formed terms, one decoded word per constructor, single steps with the results of
95_test_vectors.md, and for each statement with hypotheses a state and operands that meet them. -/

namespace Sys2Proof.Tests

open Sys2Proof Sys2Proof.Machine

/-! ## Well-formedness: the two words `0nnn` that are not `SYS` (R78) -/

theorem test_wf_refuses_sys_at_cls : (Instr.sys 0x0E0#12).wellFormed = false := by decide

theorem test_wf_refuses_sys_at_ret : (Instr.sys 0x0EE#12).wellFormed = false := by decide

theorem test_wf_accepts_sys : (Instr.sys 0x0E1#12).wellFormed = true := by decide

/-! ## Decoding: a word of each constructor, written out from the patterns of R76 -/

/-- Entries 1 to 8; V-DEC-2 to V-DEC-4, A-2. -/
theorem test_decode_control :
    decodeBytes [0x00#8, 0xE0#8] = .ok (.cls, []) ∧ decodeBytes [0x00#8, 0xEE#8] = .ok (.ret, []) ∧
    decodeBytes [0x00#8, 0xE1#8] = .ok (.sys 0x0E1#12, []) ∧ decodeBytes [0x13#8, 0x45#8] = .ok (.jp 0x345#12, []) ∧
    decodeBytes [0x23#8, 0x00#8] = .ok (.call 0x300#12, []) ∧ decodeBytes [0x33#8, 0x10#8] = .ok (.seImm 3 0x10#8, []) ∧
    decodeBytes [0x42#8, 0xFC#8] = .ok (.sneImm 2 0xFC#8, []) ∧ decodeBytes [0x51#8, 0x20#8] = .ok (.seReg 1 2, []) := by
  decide

/-- Entries 9 to 16. -/
theorem test_decode_alu :
    decodeWord 0x6AFF#16 = some (.ldImm 10 0xFF#8) ∧ decodeWord 0x720A#16 = some (.addImm 2 0x0A#8) ∧
    decodeWord 0x8150#16 = some (.ldReg 1 5) ∧ decodeWord 0x8121#16 = some (.orReg 1 2) ∧
    decodeWord 0x8122#16 = some (.andReg 1 2) ∧ decodeWord 0x8123#16 = some (.xorReg 1 2) ∧
    decodeWord 0x8F14#16 = some (.addReg 15 1) ∧ decodeWord 0x8125#16 = some (.sub 1 2) := by
  decide

/-- Entries 17 to 24; V-DEC-1, V-DEC-6, V-DEC-7. -/
theorem test_decode_shift_index_draw :
    decodeWord 0x8126#16 = some (.shr 1 2) ∧ decodeWord 0x81F7#16 = some (.subn 1 15) ∧
    decodeWord 0x812E#16 = some (.shl 1 2) ∧ decodeWord 0x9120#16 = some (.sneReg 1 2) ∧
    decodeWord 0xA2D8#16 = some (.ldI 0x2D8#12) ∧ decodeWord 0xB5FE#16 = some (.jpV0 0x5FE#12) ∧
    decodeWord 0xC30F#16 = some (.rnd 3 0x0F#8) ∧ decodeWord 0xD123#16 = some (.drw 1 2 3#4) := by
  decide

/-- Entries 25 to 35; V-DEC-8, V-DEC-9, V-DEC-12. -/
theorem test_decode_keys_timers_memory :
    decodeWord 0xE29E#16 = some (.skp 2) ∧ decodeWord 0xE2A1#16 = some (.sknp 2) ∧
    decodeWord 0xF307#16 = some (.ldVxDT 3) ∧ decodeWord 0xF10A#16 = some (.ldVxK 1) ∧
    decodeWord 0xF015#16 = some (.ldDTVx 0) ∧ decodeWord 0xF018#16 = some (.ldSTVx 0) ∧
    decodeWord 0xF41E#16 = some (.addI 4) ∧ decodeWord 0xF229#16 = some (.ldF 2) ∧
    decodeWord 0xF033#16 = some (.ldB 0) ∧ decodeWord 0xF255#16 = some (.storeRegs 2) ∧
    decodeWord 0xFF65#16 = some (.loadRegs 15) := by
  decide

/-- V-DEC-4, V-DEC-5, V-DEC-7, V-DEC-8, V-DEC-10: unknown words are refused by name, and too few bytes are. -/
theorem test_decode_unknown :
    decodeBytes [0x51#8, 0x21#8] = .error (.unknownWord 0x5121#16) ∧ decodeWord 0x8008#16 = none ∧
    decodeWord 0x800F#16 = none ∧ decodeWord 0x9121#16 = none ∧ decodeWord 0xE09F#16 = none ∧
    decodeWord 0xF000#16 = none ∧ decodeWord 0xF090#16 = none ∧ decodeBytes [0x12#8] = .error .shortInput := by
  decide

/-- A-2: the fields of `0x42FC`. -/
theorem test_fields : fieldsOf 0x42FC#16 = ⟨0x2FC#12, 0xC#4, 2, 15, 0xFC#8⟩ := by decide

theorem test_table_word : decodeTableWord 16 0xD123 = some (.drw 1 2 3#4) ∧ decodeTableWord 16 0x5121 = none := by decide

/-! ## Single steps: the start state is reset with the word at `0x200` and the items named (95_test_vectors.md) -/

/-- The vectors' start state, from a state that differs from reset in the items of the vector's start column. -/
def begun (w : Nat) (s : State) : State := s.withFetchWord 16 w

/-- Reset with some registers set. -/
def regs (vs : List (Reg × Byte)) : State := vs.foldl (fun s p => s.setV p.1 p.2) State.reset

/-- Reset with `I` and some registers set. -/
def regsI (i : Word) (vs : List (Reg × Byte)) : State := { regs vs with i := i }

/-- Reset with bytes in memory from `0x300` on, `I` there, and some registers set. -/
def regsMem (bytes : List Byte) (vs : List (Reg × Byte)) : State :=
  { regsI 0x300#16 vs with mem := Memory.writeList [] 0x300 bytes }

/-- Whether a step answers a next state with a property. -/
def gives (r : Result) (p : State → Bool) : Bool :=
  match r with
  | .next t => p t
  | .fault _ => false
  | .refused _ => false

/-- The halt record of code, info and pc a vector names. -/
def haltedAs (t : State) (code info pc : Nat) : Bool :=
  match t.halt with
  | some r => r.fault.code == code && r.fault.info == info && r.pc.toNat == pc
  | none => false

/-- V-UNK-2 -/
theorem test_unknown : gives (step (begun 0x801F (regs [(0, 0x33), (15, 0x01)])))
    (fun t => t.pc == 0x202 && t.getV 0 == 0x33 && t.getV 15 == 0x01 && t.halt == none && !t.changed) = true := by decide

/-- V-CF-20 -/
theorem test_sys : gives (step (begun 0x0123 State.reset)) (fun t => haltedAs t 6 0x0123 0x200 && t.pc == 0x200) = true := by
  decide

/-- V-CF-6 -/
theorem test_ret : gives (step (begun 0x00EE { State.reset with sp := 1, stack := State.reset.stack.set 0 0x2F0 }))
    (fun t => t.sp == 0 && t.pc == 0x2F2 && t.stack[0] == 0x2F0) = true := by decide

/-- V-CF-7 -/
theorem test_ret_empty : gives (step (begun 0x00EE State.reset))
    (fun t => haltedAs t 2 0x200 0x200 && t.sp == 0 && t.pc == 0x200) = true := by decide

/-- V-CF-2: a jump to `0x000`. -/
theorem test_jp_zero : gives (step (begun 0x1000 State.reset)) (fun t => t.pc == 0x000) = true := by decide

/-- V-CF-3: the jump to the last byte, and the fetch there. -/
theorem test_jp_last : gives (step { State.reset with pc := 0xFFF })
    (fun t => haltedAs t 3 0x1000 0xFFF && t.pc == 0xFFF) = true := by decide

/-- V-CF-9: the 16th level. -/
theorem test_call : gives (step (begun 0x2300 { State.reset with sp := 15 }))
    (fun t => t.sp == 16 && t.stack[15] == 0x200 && t.pc == 0x300) = true := by decide

/-- V-CF-8: the 17th. -/
theorem test_call_full : gives (step (begun 0x2300 { State.reset with sp := 16 }))
    (fun t => haltedAs t 1 0x200 0x200 && t.sp == 16 && t.pc == 0x200) = true := by decide

/-- V-CF-10 -/
theorem test_se_imm : gives (step (begun 0x3310 (regs [(3, 0x10)]))) (fun t => t.pc == 0x204) = true ∧
    gives (step (begun 0x3311 (regs [(3, 0x10)]))) (fun t => t.pc == 0x202) = true := by decide

/-- V-CF-11 -/
theorem test_sne_imm : gives (step (begun 0x4311 (regs [(3, 0x10)]))) (fun t => t.pc == 0x204) = true ∧
    gives (step (begun 0x4310 (regs [(3, 0x10)]))) (fun t => t.pc == 0x202) = true := by decide

/-- V-CF-12, V-CF-13 -/
theorem test_se_reg : gives (step (begun 0x5120 (regs [(1, 7), (2, 7)]))) (fun t => t.pc == 0x204) = true ∧
    gives (step (begun 0x5120 (regs [(1, 7), (2, 8)]))) (fun t => t.pc == 0x202) = true := by decide

/-- V-CF-13, V-CF-14 -/
theorem test_sne_reg : gives (step (begun 0x9120 (regs [(1, 7), (2, 8)]))) (fun t => t.pc == 0x204) = true ∧
    gives (step (begun 0x9110 (regs [(1, 7)]))) (fun t => t.pc == 0x202) = true := by decide

/-- V-CF-18 -/
theorem test_jp_v0 : gives (step (begun 0xBFFF (regs [(0, 0xFF)]))) (fun t => t.pc == 0x10FE) = true := by decide

/-- V-CF-19 -/
theorem test_jp_v0_reads_v0 : gives (step (begun 0xB5FE (regs [(0, 0x01), (5, 0x80)]))) (fun t => t.pc == 0x5FF) = true := by
  decide

/-- V-ALU-2 -/
theorem test_ld_imm : gives (step (begun 0x6F42 (regs [(15, 0x01)]))) (fun t => t.getV 15 == 0x42 && t.pc == 0x202) = true := by
  decide

/-- V-ALU-3 -/
theorem test_add_imm : gives (step (begun 0x720A (regs [(2, 0xFA), (15, 0x55)])))
    (fun t => t.getV 2 == 0x04 && t.getV 15 == 0x55) = true := by decide

/-- V-ALU-6 -/
theorem test_ld_reg : gives (step (begun 0x8150 (regs [(5, 0x33)]))) (fun t => t.getV 1 == 0x33 && t.getV 5 == 0x33) = true := by
  decide

/-- V-ALU-7 -/
theorem test_or : gives (step (begun 0x8121 (regs [(1, 0x0F), (2, 0xF0), (15, 0x77)])))
    (fun t => t.getV 1 == 0xFF && t.getV 15 == 0x77) = true := by decide

/-- V-ALU-8 -/
theorem test_and : gives (step (begun 0x8122 (regs [(1, 0x3C), (2, 0x0F), (15, 0x77)])))
    (fun t => t.getV 1 == 0x0C && t.getV 15 == 0x77) = true := by decide

/-- V-ALU-9 -/
theorem test_xor : gives (step (begun 0x8123 (regs [(1, 0x3C), (2, 0x0F)]))) (fun t => t.getV 1 == 0x33) = true := by decide

/-- V-ALU-11 -/
theorem test_add_reg : gives (step (begun 0x8124 (regs [(1, 128), (2, 128)])))
    (fun t => t.getV 1 == 0 && t.getV 15 == 1 && t.getV 2 == 128) = true := by decide

/-- V-ALU-14: the flag wins in `VF`. -/
theorem test_add_reg_vf : gives (step (begun 0x8F14 (regs [(15, 200), (1, 100)]))) (fun t => t.getV 15 == 1) = true := by decide

/-- A-8 -/
theorem test_sub : gives (step (begun 0x8125 (regs [(1, 3), (2, 5)]))) (fun t => t.getV 1 == 254 && t.getV 15 == 0) = true := by
  decide

/-- V-ALU-16: no borrow when equal. -/
theorem test_sub_equal : gives (step (begun 0x8125 (regs [(1, 7), (2, 7)]))) (fun t => t.getV 1 == 0 && t.getV 15 == 1) = true := by
  decide

/-- V-ALU-22: the old `VF` is the minuend. -/
theorem test_subn : gives (step (begun 0x81F7 (regs [(1, 3), (15, 10)]))) (fun t => t.getV 1 == 7 && t.getV 15 == 1) = true := by
  decide

/-- V-ALU-21 -/
theorem test_subn_borrow : gives (step (begun 0x8127 (regs [(1, 5), (2, 3)])))
    (fun t => t.getV 1 == 254 && t.getV 15 == 0) = true := by decide

/-- V-ALU-23 -/
theorem test_shr : gives (step (begun 0x8106 (regs [(1, 0x05)]))) (fun t => t.getV 1 == 0x02 && t.getV 15 == 1) = true := by
  decide

/-- V-ALU-24: `V2` is ignored. -/
theorem test_shr_ignores_y : gives (step (begun 0x8126 (regs [(1, 0x04), (2, 0xFF)])))
    (fun t => t.getV 1 == 0x02 && t.getV 15 == 0 && t.getV 2 == 0xFF) = true := by decide

/-- V-ALU-26 -/
theorem test_shl : gives (step (begun 0x810E (regs [(1, 0x81)]))) (fun t => t.getV 1 == 0x02 && t.getV 15 == 1) = true := by
  decide

/-- V-ALU-27: `V2` is ignored. -/
theorem test_shl_ignores_y : gives (step (begun 0x812E (regs [(1, 0x40), (2, 0x01)])))
    (fun t => t.getV 1 == 0x80 && t.getV 15 == 0) = true := by decide

/-- V-ALU-29, with the byte the host's. -/
theorem test_rnd : gives (step { begun 0xC30F State.reset with host := [.cycle 0xA7] })
    (fun t => t.getV 3 == 0x07 && t.pc == 0x202 && t.host == [] && t.reply == .done false) = true := by decide

/-- V-ALU-30, with the byte the free value. -/
theorem test_rnd_masked : ∃ t, step (begun 0xC300 State.reset) = .next t ∧ t.getV 3 = 0 :=
  ⟨_, rfl, BitVec.and_zero⟩

/-- V-MEM-1 -/
theorem test_ld_i : gives (step (begun 0xAFFF State.reset)) (fun t => t.i == 0xFFF) = true := by decide

/-- V-MEM-2 -/
theorem test_add_i : gives (step (begun 0xF41E (regsI 0x2FF [(4, 0x02), (15, 0x09)])))
    (fun t => t.i == 0x301 && t.getV 15 == 0x09) = true := by decide

/-- V-MEM-4 -/
theorem test_add_i_wraps : gives (step (begun 0xF01E (regsI 0xFFFF [(0, 0x01)]))) (fun t => t.i == 0x0000) = true := by decide

/-- V-MEM-6 -/
theorem test_ld_f : gives (step (begun 0xF029 (regs [(0, 0xFF)]))) (fun t => t.i == 0x4FB) = true := by decide

/-- V-MEM-9 -/
theorem test_ld_b : gives (step (begun 0xF033 (regsI 0xFFD [(0, 123)])))
    (fun t => t.mem.read 0xFFD == 1 && t.mem.read 0xFFE == 2 && t.mem.read 0xFFF == 3 && t.i == 0xFFD) = true := by decide

/-- V-MEM-10 -/
theorem test_ld_b_outside : gives (step (begun 0xF033 (regsI 0xFFE [(0, 123)])))
    (fun t => haltedAs t 5 0x1000 0x200 && t.mem.read 0xFFE == 0 && t.pc == 0x200) = true := by decide

/-- V-MEM-11 -/
theorem test_store_regs : gives (step (begun 0xF255 (regsI 0x400 [(0, 1), (1, 2), (2, 3), (3, 4)])))
    (fun t => t.mem.read 0x400 == 1 && t.mem.read 0x401 == 2 && t.mem.read 0x402 == 3 && t.mem.read 0x403 == 0 &&
      t.i == 0x403) = true := by decide

/-- V-MEM-14 -/
theorem test_store_regs_outside : gives (step (begun 0xFF55 (regsI 0xFF1 [(0, 9)])))
    (fun t => haltedAs t 5 0x1000 0x200 && t.mem.read 0xFF1 == 0 && t.i == 0xFF1) = true := by decide

/-- V-MEM-16 -/
theorem test_load_regs : gives (step (begun 0xF265 (regsMem [2, 5, 4] [(3, 0x99)])))
    (fun t => t.getV 0 == 2 && t.getV 1 == 5 && t.getV 2 == 4 && t.getV 3 == 0x99 && t.i == 0x303) = true := by decide

/-- V-MEM-18 -/
theorem test_load_regs_outside : gives (step (begun 0xF265 (regsI 0xFFE [(0, 7)])))
    (fun t => haltedAs t 4 0x1000 0x200 && t.getV 0 == 7 && t.i == 0xFFE) = true := by decide

/-- V-DRW-14 -/
theorem test_cls : gives (step (begun 0x00E0 { regs [(15, 0x42)] with fb := State.reset.fb.set 65 true }))
    (fun t => !t.fb[65] && t.getV 15 == 0x42 && t.changed) = true := by decide

/-- V-DRW-3: the columns wrap. -/
theorem test_drw_wraps : gives (step (begun 0xD011 (regsMem [0xFF] [(0, 62)])))
    (fun t => t.fb[61] == false && t.fb[62] && t.fb[63] && t.fb[0] && t.fb[5] && t.fb[6] == false && t.fb[64] == false &&
      t.getV 15 == 0 && t.changed) = true := by decide

/-- V-DRW-7: a collision. -/
theorem test_drw_collides : gives (step (begun 0xD011 { regsMem [0x80] [] with fb := State.reset.fb.set 0 true }))
    (fun t => t.fb[0] == false && t.getV 15 == 1) = true := by decide

/-- V-KEY-1, V-KEY-2, V-KEY-3 -/
theorem test_skp : gives (step (begun 0xE29E { regs [(2, 5)] with latch := some 5 }))
      (fun t => t.pc == 0x204 && t.latch == some 5) = true ∧
    gives (step (begun 0xE29E State.reset)) (fun t => t.pc == 0x202) = true ∧
    gives (step (begun 0xE29E { regs [(2, 0x15)] with latch := some 5 })) (fun t => t.pc == 0x202) = true := by decide

/-- V-KEY-3, V-KEY-4, V-KEY-5 -/
theorem test_sknp : gives (step (begun 0xE2A1 { regs [(2, 5)] with latch := some 5 }))
      (fun t => t.pc == 0x202 && t.latch == some 5) = true ∧
    gives (step (begun 0xE2A1 State.reset)) (fun t => t.pc == 0x204) = true ∧
    gives (step (begun 0xE2A1 { regs [(2, 0x15)] with latch := some 5 })) (fun t => t.pc == 0x204) = true := by decide

/-- V-KEY-6 -/
theorem test_key_wait : gives (step (begun 0xF10A (regs [(1, 9)])))
    (fun t => t.reply == .stalled && t.pc == 0x200 && t.getV 1 == 9 && !t.changed && awaitingInput t) = true := by decide

/-- V-KEY-8 -/
theorem test_key_taken : gives (step (begun 0xFF0A { State.reset with latch := some 0x3 }))
    (fun t => t.getV 15 == 0x03 && t.latch == none && t.pc == 0x202) = true := by decide

/-- V-TMR-1 -/
theorem test_ld_vx_dt : gives (step (begun 0xF307 { State.reset with dt := 0x3C, st := 0x11 }))
    (fun t => t.getV 3 == 0x3C && t.dt == 0x3C) = true := by decide

/-- V-TMR-2 -/
theorem test_ld_dt_vx : gives (step (begun 0xF015 (regs [(0, 60)]))) (fun t => t.dt == 60 && t.st == 0) = true := by decide

/-- V-TMR-3 -/
theorem test_ld_st_vx : gives (step (begun 0xF018 (regs [(0, 2)]))) (fun t => t.st == 2 && t.dt == 0) = true := by decide

/-! ## Host operations -/

/-- A `Reset` with a `Tick` after it. -/
def pendingReset : State := { State.reset with host := [.reset [0x12, 0x00], .tick] }

/-- V-TMR-5, on a halted core as in V-TMR-6. -/
theorem test_tick : gives (step { State.reset with dt := 1, st := 5, halt := some ⟨.stackUnderflow 0x200, 0x200⟩, host := [.tick] })
    (fun t => t.dt == 0 && t.st == 4 && haltedAs t 2 0x200 0x200) = true := by decide

/-- R287: a host that goes on without end is still there after a `Reset`, and a placed word runs whatever the host does. -/
theorem test_schedule_stays : gives (step { pendingReset with schedule := .free 3 })
      (fun t => t.schedule == .free 3 && t.host == [.tick]) = true ∧
    gives (step (begun 0x6AFF { State.reset with schedule := .free 3, host := [.tick] })) (fun t => t.getV 10 == 0xFF) = true := by
  decide

/-- V-KEY-9 -/
theorem test_set_key : gives (step { State.reset with latch := some 3, host := [.setKey 9, .getKey] })
    (fun t => t.latch == some 9 && t.host == [.getKey]) = true := by decide

/-- V-FLT-1: there is no step of a halted core. -/
theorem test_halted : step { State.reset with halt := some ⟨.stackUnderflow 0x200, 0x200⟩ } =
    .fault (.halted ⟨.stackUnderflow 0x200, 0x200⟩) := rfl

/-- V-RST-1, V-RST-5 -/
theorem test_reset : gives (step { regsI 0x123 [(1, 4)] with
      halt := some ⟨.stackUnderflow 0x200, 0x200⟩, sp := 3, host := [.reset [0x12, 0x00]] })
    (fun t => t.pc == 0x200 && t.mem.read 0 == 0xF0 && t.mem.read 1 == 0x90 && t.mem.read 0x4F == 0x80 &&
      t.mem.read 0x50 == 0 && t.mem.read 0x200 == 0x12 && t.mem.read 0x202 == 0 && t.halt == none && t.sp == 0 &&
      t.getV 1 == 0 && t.i == 0) = true := by decide

/-- V-RST-3: reset with nothing placed, then a cycle. -/
theorem test_reset_runs_sys : gives (step State.reset) (fun t => haltedAs t 6 0x0000 0x200) = true := by decide

/-- The font (R35): the last glyph ends at `0x4F`, and there are 80 bytes. -/
theorem test_font : fontBytes.length = 80 ∧ fontBytes.getD 0x4B 0 = 0xF0#8 ∧ fontBytes.getD 0x4C 0 = 0x80#8 := by decide

/-! ## Witnesses: for each statement with hypotheses, a state and operands that meet them together -/

/-- Reset with host operations pending. -/
def pending (ops : List HostOp) : State := { State.reset with host := ops }

/-- A halted core with host operations pending. -/
def stopped (ops : List HostOp) : State := { pending ops with halt := some ⟨.unhandledInstruction 0x0FFF, 0x200⟩ }

theorem witness_DecodeInvertsEncode : (Instr.sys 0x0ED#12).wellFormed = true ∧ (Instr.drw 15 15 15#4).wellFormed = true := by
  decide

theorem witness_EncodeInvertsDecode : decodeWord 0x0FFF#16 = some (.sys 0xFFF#12) ∧ decodeWord 0xF065#16 = some (.loadRegs 0) := by
  decide

theorem witness_TableEntriesOverlapOnlyAtSys :
    (∃ r ∈ table, ∃ q ∈ table, r.covers 0x00E0#16 = true ∧ q.covers 0x00E0#16 = true ∧ r ≠ q) ∧
    (∃ r ∈ table, ∃ q ∈ table, r.covers 0x00EE#16 = true ∧ q.covers 0x00EE#16 = true ∧ r ≠ q) := by
  decide

/-- Both forms, the second with the word in the last two bytes of memory. -/
theorem witness_StepRunsTheDecodedInstruction :
    (∃ s : State, s.halt = none ∧ s.pc.toNat + 1 < Config.memSize ∧
      decodeBytes [s.mem.read s.pc.toNat, s.mem.read (s.pc.toNat + 1)] = .ok (.ldImm 10 0xFF#8, []) ∧
      s.cyclesNext) ∧
    (∃ s : State, s.halt = none ∧ s.pc.toNat + 1 < Config.memSize ∧ s.pc.toNat = 0xFFE ∧
      decodeBytes [s.mem.read s.pc.toNat, s.mem.read (s.pc.toNat + 1)] = .ok (.rnd 3 0x0F#8, []) ∧
      s.host = .cycle 0xA7 :: [.tick]) :=
  ⟨⟨begun 0x6AFF State.reset, by decide, by decide, by decide, rfl, rfl⟩,
   ⟨{ begun 0xC30F { State.reset with pc := 0xFFE } with host := [.cycle 0xA7, .tick] }, by decide⟩⟩

/-- With the host only calling for cycles, and with `Cycle(r)` pending. -/
theorem witness_UnknownWordIsANoOp :
    (∃ s : State, s.halt = none ∧ s.cyclesNext ∧ s.pc.toNat + 1 < Config.memSize ∧
      decodeWord (wordOfBytes (s.mem.read s.pc.toNat) (s.mem.read (s.pc.toNat + 1))) = none) ∧
    (∃ s : State, s.halt = none ∧ s.host = .cycle 0 :: [] ∧ s.pc.toNat + 1 < Config.memSize ∧
      decodeWord (wordOfBytes (s.mem.read s.pc.toNat) (s.mem.read (s.pc.toNat + 1))) = none) :=
  ⟨⟨begun 0x5121 State.reset, rfl, ⟨rfl, rfl⟩, by decide⟩, ⟨{ begun 0x5121 State.reset with host := [.cycle 0] }, by decide⟩⟩

/-- One byte outside, and both. -/
theorem witness_FetchOutsideMemoryHalts :
    (∃ s : State, s.halt = none ∧ s.cyclesNext ∧ Config.memSize ≤ s.pc.toNat + 1 ∧ s.pc.toNat < Config.memSize) ∧
    (∃ s : State, s.halt = none ∧ s.host = .cycle 0 :: [] ∧ Config.memSize ≤ s.pc.toNat + 1 ∧
      s.pc.toNat = Config.memSize) :=
  ⟨⟨{ State.reset with pc := 0xFFF }, rfl, ⟨rfl, rfl⟩, by decide⟩,
   ⟨{ State.reset with pc := 0x1000, host := [.cycle 0] }, by decide⟩⟩

/-- Each outcome is met. -/
theorem witness_CycleEndsInOneOfThreeOutcomes :
    gives (cycle (begun 0x00E0 State.reset)) (fun t => t.reply == .done true) = true ∧
    gives (cycle (begun 0xF00A State.reset)) (fun t => t.reply == .stalled) = true ∧
    gives (cycle State.reset) (fun t => t.reply == .faulted (.unhandledInstruction 0)) = true := by decide

theorem witness_OnlyTheKeyWaitStalls :
    (∃ t, exec (.ldVxK 15) State.reset = .next t ∧ t.reply = .stalled) ∧
    (∃ t, exec (.ldVxK 15) { State.reset with latch := some 15 } = .next t ∧ t.reply ≠ .stalled) :=
  ⟨⟨_, rfl, rfl⟩, ⟨_, rfl, by decide⟩⟩

theorem witness_FaultsArePrecise : ∃ t, exec .ret State.reset = .next t ∧ t.reply = .faulted (.stackUnderflow 0x200) :=
  ⟨_, rfl, rfl⟩

/-- A fault of each code an instruction raises. -/
theorem witness_FaultsComeFromTheirInstructions :
    (∃ t, exec (.call 0xFFF#12) { State.reset with sp := 16 } = .next t ∧ t.reply = .faulted (.stackOverflow 0x200)) ∧
    (∃ t, exec .ret State.reset = .next t ∧ t.reply = .faulted (.stackUnderflow 0x200)) ∧
    (∃ t, exec (.drw 0 1 1#4) { State.reset with i := 0x1000 } = .next t ∧
      t.reply = .faulted (.memoryOutOfBounds .read 0x1000)) ∧
    (∃ t, exec (.loadRegs 15) { State.reset with i := 0xFF1 } = .next t ∧
      t.reply = .faulted (.memoryOutOfBounds .read 0x1000)) ∧
    (∃ t, exec (.ldB 0) { State.reset with i := 0xFFE } = .next t ∧
      t.reply = .faulted (.memoryOutOfBounds .write 0x1000)) ∧
    (∃ t, exec (.storeRegs 0) { State.reset with i := 0xFFFF } = .next t ∧
      t.reply = .faulted (.memoryOutOfBounds .write 0xFFFF)) ∧
    (∃ t, exec (.sys 0xFFF#12) State.reset = .next t ∧ t.reply = .faulted (.unhandledInstruction 0x0FFF)) :=
  ⟨⟨_, rfl, by decide⟩, ⟨_, rfl, by decide⟩, ⟨_, rfl, by decide⟩, ⟨_, rfl, by decide⟩, ⟨_, rfl, by decide⟩,
   ⟨_, rfl, by decide⟩, ⟨_, rfl, by decide⟩⟩

theorem witness_ChangedOnlyAfterClsAndDrw :
    (∃ t, exec .cls State.reset = .next t ∧ t.changed = true) ∧
    (∃ t, exec (.drw 0 0 0#4) { State.reset with i := 0x1000 } = .next t ∧ t.changed = true) ∧
    (∃ t, exec (.drw 0 0 1#4) { State.reset with i := 0x1000 } = .next t ∧ t.changed = false) :=
  ⟨⟨_, rfl, rfl⟩, ⟨_, rfl, rfl⟩, ⟨_, rfl, rfl⟩⟩

/-- Equal bytes and a word that is `RND`; then different bytes and a word that is not. -/
theorem witness_RandomByteReachesOnlyRnd :
    (∃ s u : State, s ≠ u ∧ SameItems s u ∧ s.randomByte = u.randomByte ∧ s.fetch = .ok 0xC30F#16) ∧
    (∃ s u : State, SameItems s u ∧ s.randomByte ≠ u.randomByte ∧
      ∀ w x kk, s.fetch = .ok w → decodeWord w ≠ some (.rnd x kk)) := by
  refine ⟨⟨{ begun 0xC30F State.reset with host := [.cycle 1] }, { begun 0xC30F State.reset with host := [.cycle 1, .tick] },
    fun h => absurd (congrArg State.host h) (by decide), ⟨rfl, rfl, rfl, rfl, rfl, rfl, rfl, rfl, rfl, rfl, rfl⟩,
    by decide, by decide⟩, ⟨{ begun 0x6AFF State.reset with host := [.cycle 1] }, { begun 0x6AFF State.reset with host := [.cycle 2] },
      ⟨rfl, rfl, rfl, rfl, rfl, rfl, rfl, rfl, rfl, rfl, rfl⟩, by decide, ?_⟩⟩
  intro w x kk h
  have hw : w = 0x6AFF#16 := (Except.ok.inj h).symm
  subst hw
  have hd : decodeWord 0x6AFF#16 = some (.ldImm 10 0xFF#8) := by decide
  simp [hd]

theorem witness_InstructionsKeepAllButTheirFootprint :
    ∃ t, exec (.storeRegs 15) { State.reset with i := 0xFF0 } = .next t := ⟨_, rfl⟩

/-- A state at the highest `pc`, with a stack entry in use; the step halts the core. -/
theorem witness_StepKeepsTheInvariant : ∃ s t : State, Inv s ∧ s.pc.toNat = 0x10FE ∧ s.sp = 1 ∧ step s = .next t := by
  refine ⟨{ State.reset with pc := 0x10FE, sp := 1, stack := State.reset.stack.set 0 0xFFE }, _,
    ⟨rfl, by decide, ?_, ?_⟩, rfl, rfl, rfl⟩
  · decide
  · intro r h; cases h

/-- The lowest and the highest depth, and the empty stack. -/
theorem witness_RetGoesTwoPastThePoppedEntry :
    (∃ s : State, s.sp.val = 0 + 1) ∧ (∃ s : State, s.sp.val = 15 + 1) ∧ (∃ s : State, s.sp = 0) :=
  ⟨⟨{ State.reset with sp := 1 }, rfl⟩, ⟨{ State.reset with sp := 16 }, rfl⟩, ⟨State.reset, rfl⟩⟩

theorem witness_CallPushesItsOwnAddress :
    (∃ s : State, s.sp.val < 16 ∧ s.sp.val = 15) ∧ (∃ s : State, s.sp.val < 16 ∧ s.sp = 0) ∧ (∃ s : State, s.sp = 16) :=
  ⟨⟨{ State.reset with sp := 15 }, by decide⟩, ⟨State.reset, by decide⟩, ⟨{ State.reset with sp := 16 }, rfl⟩⟩

theorem witness_CallThenRetReturns : ∃ s t : State, s.sp.val < 16 ∧ s.sp.val = 15 ∧ exec (.call 0x000#12) s = .next t :=
  ⟨{ State.reset with sp := 15 }, _, by decide, rfl, rfl⟩

/-- The hypotheses on the destination in the flag instructions' results. -/
theorem witness_FlagDestinations : (14 : Reg) ≠ vf ∧ (15 : Reg) = vf := by decide

/-- The byte the host's, and the byte the free value; a mask with a clear bit. -/
theorem witness_RndMasksTheRandomByte :
    (∃ s : State, s.host = .cycle 0xFF :: []) ∧ (∃ s : State, s.host = []) ∧ (0x7F#8 : Byte).getLsbD 7 = false :=
  ⟨⟨pending [.cycle 0xFF], rfl⟩, ⟨State.reset, rfl⟩, by decide⟩

/-- Two states that differ in the items that must not be read. -/
theorem witness_AluTouchesOnlyRegisters : ∃ s u : State, isAlu (.rnd 15 0xFF#8) = true ∧ s.v = u.v ∧
    s.randomByte = u.randomByte ∧ s.i ≠ u.i ∧ s.dt ≠ u.dt ∧ s.latch ≠ u.latch :=
  ⟨State.reset, { State.reset with i := 1, dt := 1, latch := some 1 }, by decide, rfl, rfl, by decide⟩

/-- The last place three bytes fit; the third byte outside; the first outside. -/
theorem witness_LdBStoresTheDecimalDigits :
    (∃ s : State, indexed s 2 < Config.memSize ∧ indexed s 2 = 0xFFF) ∧
    (∃ s : State, LowestOutside s 2) ∧ (∃ s : State, LowestOutside s 0) :=
  ⟨⟨{ State.reset with i := 0xFFD }, by decide⟩, ⟨{ State.reset with i := 0xFFE }, by decide, by decide⟩,
   ⟨{ State.reset with i := 0x1000 }, by decide, by decide⟩⟩

/-- `V0` to `VF` at the last place they fit; the last byte outside; `V0` alone outside. The same for the load. -/
theorem witness_StoreRegsStoresAndAdvancesI :
    (∃ s : State, indexed s (15 : Reg).val < Config.memSize ∧ indexed s 15 = 0xFFF) ∧
    (∃ s : State, 15 ≤ (15 : Reg).val ∧ LowestOutside s 15) ∧
    (∃ s : State, 0 ≤ (0 : Reg).val ∧ LowestOutside s 0) :=
  ⟨⟨{ State.reset with i := 0xFF0 }, by decide⟩, ⟨{ State.reset with i := 0xFF1 }, by decide, by decide, by decide⟩,
   ⟨{ State.reset with i := 0xFFFF }, by decide, by decide, by decide⟩⟩

theorem witness_LoadRegsLoadsAndAdvancesI :
    (∃ s : State, indexed s (15 : Reg).val < Config.memSize ∧ indexed s 15 = 0xFFF) ∧
    (∃ s : State, 15 ≤ (15 : Reg).val ∧ LowestOutside s 15) ∧
    (∃ s : State, 0 ≤ (0 : Reg).val ∧ LowestOutside s 0) ∧
    ((0 : Reg) ≤ 0 ∧ (0 : Reg) < 1) :=
  ⟨⟨{ State.reset with i := 0xFF0 }, by decide⟩, ⟨{ State.reset with i := 0xFF1 }, by decide, by decide, by decide⟩,
   ⟨{ State.reset with i := 0x1000 }, by decide, by decide, by decide⟩, by decide⟩

/-- Other registers in between. -/
theorem witness_StoredRegistersLoadBack : ∃ s t u w : State, indexed s (15 : Reg).val < Config.memSize ∧
    exec (.storeRegs 15) s = .next t ∧ u.mem = t.mem ∧ u.i = s.i ∧ exec (.loadRegs 15) u = .next w ∧ u.v ≠ t.v :=
  ⟨regsI 0xFF0 [(0, 9)], _, { regsI 0xFF0 [(3, 7)] with mem := Memory.writeList [] 0xFF0 [9] }, _, by decide, rfl, rfl, rfl, rfl,
    by decide⟩

/-- Both stores, at the end of memory. -/
theorem witness_StoredBytesAreFetched :
    (∃ (s t : State) (pc : Word), (14 : Reg) < 15 ∧ indexed s (15 : Reg).val < Config.memSize ∧
      pc.toNat = indexed s (14 : Reg).val ∧ exec (.storeRegs 15) s = .next t) ∧
    (∃ (s t : State) (pc pc' : Word), indexed s 2 < Config.memSize ∧ exec (.ldB 15) s = .next t ∧
      pc.toNat = indexed s 0 ∧ pc'.toNat = indexed s 1) :=
  ⟨⟨{ State.reset with i := 0xFF0 }, _, 0xFFE, by decide, by decide, by decide, rfl⟩,
   ⟨{ State.reset with i := 0xFFD }, _, 0xFFD, 0xFFE, by decide, rfl, by decide, by decide⟩⟩

/-- Fifteen rows ending at the last byte; and a height of zero with `I` outside memory. -/
theorem witness_DrwInvertsThePixelsItLandsOn :
    (∃ s : State, indexed s 14 = 0xFFF ∧ ∀ row, row < (15#4 : Nibble).toNat → indexed s row < Config.memSize) ∧
    (∃ s : State, Config.memSize ≤ indexed s 0 ∧ ∀ row, row < (0#4 : Nibble).toNat → indexed s row < Config.memSize) :=
  ⟨⟨{ State.reset with i := 0xFF1 }, by decide⟩, ⟨{ State.reset with i := 0x1000 }, by decide⟩⟩

/-- A pixel a drawn bit lands on, in the last column and row, that is off; one that is on; and one none lands on. -/
theorem witness_DrwLands :
    (∃ s : State, Lands 0 1 1#4 s 63 31 ∧ pixel s 63 31 = false) ∧
    (∃ s : State, Lands 0 1 1#4 s 63 31 ∧ pixel s 63 31 = true) ∧
    (∃ s : State, ¬Lands 0 1 0#4 s 63 31) := by
  refine ⟨⟨regsMem [0x80] [(0, 127), (1, 31)], ⟨0, 0, by decide, by decide, by decide, by decide, by decide⟩,
      by simp [pixel, cellIndex, regsMem, regsI, regs, State.setV, State.reset]⟩,
    ⟨{ regsMem [0x80] [(0, 127), (1, 31)] with fb := State.reset.fb.set 2047 true },
      ⟨0, 0, by decide, by decide, by decide, by decide, by decide⟩, by simp [pixel, cellIndex]⟩, ⟨State.reset, ?_⟩⟩
  rintro ⟨row, col, h, -⟩
  exact absurd h (Nat.not_lt_zero row)

/-- The first row outside; the last of fifteen outside. -/
theorem witness_DrwOutsideMemoryHalts :
    (∃ s : State, 0 < (1#4 : Nibble).toNat ∧ LowestOutside s 0) ∧
    (∃ s : State, 14 < (15#4 : Nibble).toNat ∧ LowestOutside s 14) :=
  ⟨⟨{ State.reset with i := 0x1000 }, by decide, by decide, by decide⟩,
   ⟨{ State.reset with i := 0xFF2 }, by decide, by decide, by decide⟩⟩

theorem witness_BlankSpriteDrawsNothing : ∃ s : State, ∀ row, row < (15#4 : Nibble).toNat →
    indexed s row < Config.memSize ∧ s.mem.read (indexed s row) = 0#8 :=
  ⟨{ State.reset with i := 0xFF1 }, by decide⟩

/-- The hypotheses of the two statements on a double draw. -/
theorem witness_DrawingTwiceRestoresTheScreen : (14 : Reg) ≠ vf ∧ (0 : Reg) ≠ vf ∧
    ∃ s : State, ∀ row, row < (15#4 : Nibble).toNat → indexed s row < Config.memSize :=
  ⟨by decide, by decide, { State.reset with i := 0xFF1 }, by decide⟩

theorem witness_CollisionsOfADoubleDraw : (14 : Reg) ≠ vf ∧ (0 : Reg) ≠ vf ∧
    ∃ s : State, (∀ row, row < (5#4 : Nibble).toNat → indexed s row < Config.memSize) ∧ Lands 14 0 5#4 s 0 0 ∧
      pixel s 0 0 = false :=
  ⟨by decide, by decide, State.reset, by decide, ⟨0, 0, by decide, by decide, by decide, by decide, by decide⟩, by decide⟩

theorem witness_KeyTestsReadTheLatch : (∃ s : State, s.latch = none) ∧ (∃ s : State, s.latch = some 15) :=
  ⟨⟨State.reset, rfl⟩, ⟨{ State.reset with latch := some 15 }, rfl⟩⟩

theorem witness_KeyWaitTakesTheKey : (∃ s : State, s.latch = some 0) ∧ (∃ s : State, s.latch = none) :=
  ⟨⟨{ State.reset with latch := some 0 }, rfl⟩, ⟨State.reset, rfl⟩⟩

/-- A timer at 0 and one above. -/
theorem witness_TickFloorsBothTimers : ∃ s : State, s.host = .tick :: [] ∧ s.dt = 0 ∧ s.st = 255 :=
  ⟨{ pending [.tick] with st := 255 }, rfl, rfl, rfl⟩

theorem witness_KeyAndReadOperations :
    (∃ s : State, s.host = .setKey 15 :: [] ∧ s.latch = some 0) ∧ (∃ s : State, s.host = .clearKey :: [] ∧ s.latch = some 0) ∧
    (∃ s : State, s.host = .getKey :: []) ∧ (∃ s : State, s.host = .readFb :: []) ∧ (∃ s : State, s.host = .readST :: []) ∧
    (∃ s : State, s.host = .readHalt :: [] ∧ s.halt ≠ none) :=
  ⟨⟨{ pending [.setKey 15] with latch := some 0 }, rfl, rfl⟩, ⟨{ pending [.clearKey] with latch := some 0 }, rfl, rfl⟩,
   ⟨pending [.getKey], rfl⟩, ⟨pending [.readFb], rfl⟩, ⟨pending [.readST], rfl⟩, ⟨stopped [.readHalt], rfl, by decide⟩⟩

/-- The longest image, its last byte, and an empty one with the bytes after it. -/
theorem witness_ResetPlacesTheImage :
    (∃ (s : State) (image : List Byte), s.host = .reset image :: [] ∧ image.length ≤ 3584 ∧ 3583 < image.length) ∧
    (∃ (s : State) (image : List Byte), s.host = .reset image :: [] ∧ image.length ≤ 3584 ∧ image = [] ∧
      0x200 + image.length ≤ 0xFFF ∧ 0xFFF < Config.memSize) :=
  ⟨⟨pending [.reset (List.replicate 3584 0xAA)], List.replicate 3584 0xAA, rfl, by rw [List.length_replicate],
    by rw [List.length_replicate]; decide⟩, ⟨pending [.reset []], [], rfl, by decide, rfl, by decide, by decide⟩⟩

theorem witness_ResetSetsEveryItem :
    (∃ (s : State) (image : List Byte), s.host = .reset image :: [] ∧ image.length ≤ 3584) ∧
    (∃ (s : State) (image : List Byte), s.host = .reset image :: [] ∧ 3584 < image.length ∧ image.length = 3585) :=
  ⟨⟨stopped [.reset [0x12, 0x00]], [0x12, 0x00], rfl, by decide⟩,
   ⟨pending [.reset (List.replicate 3585 0xAA)], List.replicate 3585 0xAA, rfl, by rw [List.length_replicate]; decide,
    List.length_replicate⟩⟩

/-- A halted core with each operation pending. -/
theorem witness_OnlyResetEndsAHalt :
    (∃ s r, State.halt s = some r ∧ s.cyclesNext) ∧ (∃ s r, State.halt s = some r ∧ s.host = .cycle 0 :: []) ∧
    (∃ s r t, State.halt s = some r ∧ s.host = .getKey :: [] ∧ (∀ image, HostOp.getKey ≠ .reset image) ∧ step s = .next t) ∧
    (∃ s r, State.halt s = some r ∧ s.host = .tick :: []) ∧ (∃ s r, State.halt s = some r ∧ s.host = .setKey 1 :: []) ∧
    (∃ s r, State.halt s = some r ∧ s.host = .clearKey :: []) ∧ (∃ s r, State.halt s = some r ∧ s.host = .readFb :: []) ∧
    (∃ s r, State.halt s = some r ∧ s.host = .reset [0x12, 0x00] :: []) :=
  ⟨⟨stopped [], _, rfl, rfl, rfl⟩, ⟨stopped [.cycle 0], _, rfl, rfl⟩, ⟨stopped [.getKey], _, _, rfl, rfl, nofun, rfl⟩,
   ⟨stopped [.tick], _, rfl, rfl⟩, ⟨stopped [.setKey 1], _, rfl, rfl⟩, ⟨stopped [.clearKey], _, rfl, rfl⟩,
   ⟨stopped [.readFb], _, rfl, rfl⟩, ⟨stopped [.reset [0x12, 0x00]], _, rfl, rfl⟩⟩

/-- The last row and the last column, a row that wraps among them. -/
theorem witness_NoCellIsToggledTwice :
    rowTarget .clip ((17#8 : Byte).toNat + 14) = some 31 ∧ rowTarget .wrap ((255#8 : Byte).toNat + 14) = some 13 ∧
    cellIndex (columnTarget 255 7) 31 = cellIndex (columnTarget 255 7) 31 := by decide

/-- The writer of `ST`, and another. -/
theorem witness_NoInstructionReadsTheSoundTimer :
    (∃ t, exec (.ldSTVx 15) State.reset = .next t) ∧ (∃ t, exec (.ldVxDT 15) State.reset = .next t) :=
  ⟨⟨_, rfl⟩, ⟨_, rfl⟩⟩

/-- A host that goes on without end with something pending, and with nothing pending; a stalled core among them. -/
theorem witness_TheHostMayRunAnySequence :
    (∃ s t : State, s.host = .tick :: [] ∧ s.schedule = .free 7 ∧ s.reply = .stalled ∧ step s = .next t) ∧
    (∃ s : State, s.host = [] ∧ s.schedule = .free 7) :=
  ⟨⟨{ pending [.tick] with schedule := .free 7, reply := .stalled }, _, rfl, rfl, rfl, rfl⟩,
   ⟨{ State.reset with schedule := .free 7 }, rfl, rfl⟩⟩

end Sys2Proof.Tests
end

/-! The family `30_encoding.md`: the fields of a word, the three ends of a cycle, the stall, and what a cycle depends on. -/

namespace Sys2Proof.Machine

/-! ## The fields of a word (R72) -/

/-- Settles O3: each field as a number, field by field. -/
theorem fieldsAreTheBitPositions : Obligations.FieldsAreTheBitPositions := fun w =>
  ⟨fieldsOf_addr_toNat w, fieldsOf_nibble_toNat w, fieldsOf_x_val w, fieldsOf_y_val w, fieldsOf_kk_toNat w⟩

/-! ## The ends of a cycle (R92) -/

theorem SameItems.of_stalled (s : State) : SameItems s s.stalled :=
  ⟨rfl, rfl, rfl, rfl, rfl, rfl, rfl, rfl, rfl, rfl, rfl⟩

/-- A cycle ends as an instruction does; the fetch's fault and the unknown word add no fourth way. -/
theorem cycle_ends (s : State) :
    (∃ (u : State) (pcH : Word) (c : Bool), cycle s = .next (u.completed pcH c) ∧ u.halt = s.halt) ∨
    cycle s = .next s.stalled ∨
    (∃ f : CoreFault, cycle s = .next (s.faulted f)) := by
  rcases cycle_cases s with ⟨f, -, hc⟩ | ⟨w, i, -, -, hc⟩ | ⟨w, -, -, hc⟩
  · exact .inr (.inr ⟨f, hc⟩)
  · rw [hc]
    rcases exec_cases i s with ⟨u, pcH, c, he, hhalt, -⟩ | he | ⟨f, he⟩
    · exact .inl ⟨u, pcH, c, he, hhalt⟩
    · exact .inr (.inl he)
    · exact .inr (.inr ⟨f, he⟩)
  · exact .inl ⟨s, s.pc, false, hc, rfl⟩

/-- Settles O10, by the three ends of a cycle. -/
theorem cycleEndsInOneOfThreeOutcomes : Obligations.CycleEndsInOneOfThreeOutcomes := by
  intro s hrun
  rcases cycle_ends s with ⟨u, pcH, c, hc, hhalt⟩ | hc | ⟨f, hc⟩
  · exact ⟨_, hc, .inl ⟨c, rfl, hhalt.trans hrun⟩⟩
  · exact ⟨_, hc, .inr (.inl ⟨rfl, SameItems.of_stalled s⟩)⟩
  · exact ⟨_, hc, .inr (.inr ⟨f, rfl, rfl⟩)⟩

/-! ## The stall (R91, R243) -/

theorem completed_ne_stalled (u s : State) (pcH : Word) (c : Bool) :
    (.next (u.completed pcH c) : Result) ≠ .next s.stalled := fun h =>
  Reply.noConfusion (congrArg State.reply (Host.Outcome.next.inj h))

theorem faulted_ne_stalled (u s : State) (f : CoreFault) : (.next (u.faulted f) : Result) ≠ .next s.stalled := fun h =>
  Reply.noConfusion (congrArg State.reply (Host.Outcome.next.inj h))

/-- The address check adds no stall to the instruction it guards. -/
theorem checked_ne_stalled {rest : Result} {s : State} (kind : AccessKind) (base count : Nat)
    (h : rest ≠ .next s.stalled) : checked kind base count s rest ≠ .next s.stalled := by
  rw [checked_eq]
  split
  · exact h
  · exact faulted_ne_stalled _ _ _

/-- Every instruction but `LD Vx, K` completes or faults. -/
theorem exec_ne_stalled {i : Instr} (hi : ∀ x, i ≠ .ldVxK x) (s : State) : exec i s ≠ .next s.stalled := by
  cases i
  case ldVxK x => exact absurd rfl (hi x)
  case sys addr => exact faulted_ne_stalled _ _ _
  case ret =>
    simp only [exec, execRet]
    split
    · exact faulted_ne_stalled _ _ _
    · exact completed_ne_stalled _ _ _ _
  case call addr =>
    simp only [exec, execCall]
    split
    · exact faulted_ne_stalled _ _ _
    · exact completed_ne_stalled _ _ _ _
  case drw x y n => exact checked_ne_stalled _ _ _ (completed_ne_stalled _ _ _ _)
  case ldB x => exact checked_ne_stalled _ _ _ (completed_ne_stalled _ _ _ _)
  case storeRegs x => exact checked_ne_stalled _ _ _ (completed_ne_stalled _ _ _ _)
  case loadRegs x => exact checked_ne_stalled _ _ _ (completed_ne_stalled _ _ _ _)
  all_goals exact completed_ne_stalled _ _ _ _

/-- `LD Vx, K` takes a latched key at once. -/
theorem exec_ldVxK_eq_stalled_iff (x : Reg) (s : State) : exec (.ldVxK x) s = .next s.stalled ↔ s.latch = none := by
  simp only [exec, execLdVxK]
  split
  · next h => exact iff_of_true rfl h
  · next k h => exact iff_of_false (completed_ne_stalled _ _ _ _) (by simp [h])

theorem exec_eq_stalled_iff (i : Instr) (s : State) :
    exec i s = .next s.stalled ↔ (∃ x, i = .ldVxK x) ∧ s.latch = none := by
  constructor
  · intro h
    by_cases hi : ∃ x, i = .ldVxK x
    · obtain ⟨x, rfl⟩ := hi
      exact ⟨⟨x, rfl⟩, (exec_ldVxK_eq_stalled_iff x s).1 h⟩
    · exact absurd h (exec_ne_stalled (fun x hx => hi ⟨x, hx⟩) s)
  · rintro ⟨⟨x, rfl⟩, hlatch⟩
    exact (exec_ldVxK_eq_stalled_iff x s).2 hlatch

/-- The reply tells a stall from the other two ends of an instruction's cycle. -/
theorem reply_eq_stalled_iff {i : Instr} {s t : State} (h : exec i s = .next t) :
    t.reply = .stalled ↔ t = s.stalled := by
  refine ⟨fun hr => ?_, fun ht => ht ▸ rfl⟩
  rcases exec_cases i s with ⟨u, pcH, c, he, -⟩ | he | ⟨f, he⟩ <;> cases h.symm.trans he
  · cases hr
  · rfl
  · cases hr

/-- The fetch reads `pc` and memory alone (R55). -/
theorem SameItems.fetch_eq {s t : State} (h : SameItems s t) : t.fetch = s.fetch := by
  obtain ⟨hmem, -, -, hpc, -⟩ := h
  simp only [State.fetch, hmem, hpc]

/-- Settles O11, through the one state a stall ends in. -/
theorem onlyTheKeyWaitStalls : Obligations.OnlyTheKeyWaitStalls := by
  intro i s t h
  rw [reply_eq_stalled_iff h]
  refine ⟨?_, ?_⟩
  · rw [← exec_eq_stalled_iff, h, Host.Outcome.next.injEq]
  · rintro rfl
    exact ⟨SameItems.of_stalled s, rfl, (SameItems.of_stalled s).fetch_eq⟩

/-! ## What a cycle depends on (R93) -/

/-- Two results are next states that agree on every item and report the same. -/
def SameAnswer (r q : Result) : Prop :=
  ∃ t v, r = .next t ∧ q = .next v ∧ SameItems t v ∧ v.reply = t.reply

/-- The spec's items of `s` with the model's own four fields of `u`. -/
def State.withOwnFieldsOf (s u : State) : State :=
  { s with reply := u.reply, draws := u.draws, host := u.host, schedule := u.schedule }

/-- A state with the items of `s` is `s` but for the model's own four fields. -/
theorem SameItems.eq_withOwnFieldsOf {s u : State} (h : SameItems s u) : u = s.withOwnFieldsOf u := by
  cases u
  obtain ⟨rfl, rfl, rfl, rfl, rfl, rfl, rfl, rfl, rfl, rfl, rfl⟩ := h
  rfl

theorem sameItems_withOwnFieldsOf (s u : State) : SameItems s (s.withOwnFieldsOf u) :=
  ⟨rfl, rfl, rfl, rfl, rfl, rfl, rfl, rfl, rfl, rfl, rfl⟩

theorem SameAnswer.of_completed {s u : State} (h : SameItems s u) (pcH : Word) (c : Bool) :
    SameAnswer (.next (s.completed pcH c)) (.next (u.completed pcH c)) := by
  obtain ⟨hmem, hv, hi, -, hrest⟩ := h
  exact ⟨_, _, rfl, rfl, ⟨hmem, hv, hi, rfl, hrest⟩, rfl⟩

theorem SameAnswer.of_completed_own (s u : State) (pcH : Word) (c : Bool) :
    SameAnswer (.next (s.completed pcH c)) (.next ((s.withOwnFieldsOf u).completed pcH c)) :=
  SameAnswer.of_completed (sameItems_withOwnFieldsOf s u) pcH c

theorem SameAnswer.of_stalled {s u : State} (h : SameItems s u) : SameAnswer (.next s.stalled) (.next u.stalled) :=
  ⟨_, _, rfl, rfl, h, rfl⟩

theorem SameAnswer.of_faulted {s u : State} (h : SameItems s u) (f : CoreFault) :
    SameAnswer (.next (s.faulted f)) (.next (u.faulted f)) := by
  obtain ⟨hmem, hv, hi, hpc, hstack, hsp, hdt, hst, hfb, hlatch, -⟩ := h
  exact ⟨_, _, rfl, rfl, ⟨hmem, hv, hi, hpc, hstack, hsp, hdt, hst, hfb, hlatch, by simp [hpc]⟩, rfl⟩

/-- The address check depends on the addresses alone. -/
theorem SameAnswer.of_checked {s u : State} {r q : Result} (kind : AccessKind) (base count : Nat) (h : SameItems s u)
    (hr : SameAnswer r q) : SameAnswer (checked kind base count s r) (checked kind base count u q) := by
  simp only [checked_eq]
  split
  · exact hr
  · exact SameAnswer.of_faulted h _

theorem pop_withOwnFieldsOf (s u : State) :
    (s.withOwnFieldsOf u).pop = s.pop.map (fun p => (p.1, p.2.withOwnFieldsOf u)) := by
  unfold State.pop
  by_cases h : 0 < s.sp.val <;> simp [State.withOwnFieldsOf, h]

theorem push_withOwnFieldsOf (s u : State) (w : Word) :
    (s.withOwnFieldsOf u).push w = (s.push w).map (fun t => t.withOwnFieldsOf u) := by
  unfold State.push
  by_cases h : s.sp.val < 16 <;> simp [State.withOwnFieldsOf, h]

/-- An instruction reads none of the model's own four fields, but for `RND`, which reads the random byte. -/
theorem exec_withOwnFieldsOf (i : Instr) (s u : State)
    (hr : (s.withOwnFieldsOf u).randomByte = s.randomByte ∨ ∀ x kk, i ≠ .rnd x kk) :
    SameAnswer (exec i s) (exec i (s.withOwnFieldsOf u)) := by
  have same := sameItems_withOwnFieldsOf s u
  cases i
  case rnd x kk =>
    obtain hr | hr := hr
    · simp only [exec, execRnd, hr]
      exact SameAnswer.of_completed_own _ { u with draws := u.draws + 1 } _ _
    · exact absurd rfl (hr x kk)
  case sys addr => exact SameAnswer.of_faulted same _
  case ret =>
    simp only [exec, execRet, pop_withOwnFieldsOf]
    cases s.pop with
    | none => exact SameAnswer.of_faulted same _
    | some p => exact SameAnswer.of_completed_own p.2 u _ _
  case call addr =>
    have hpc : (s.withOwnFieldsOf u).pc = s.pc := rfl
    simp only [exec, execCall, hpc, push_withOwnFieldsOf]
    cases s.push s.pc with
    | none => exact SameAnswer.of_faulted same _
    | some t => exact SameAnswer.of_completed_own t u _ _
  case ldVxK x =>
    have hlatch : (s.withOwnFieldsOf u).latch = s.latch := rfl
    simp only [exec, execLdVxK, hlatch]
    cases s.latch with
    | none => exact SameAnswer.of_stalled same
    | some k => exact SameAnswer.of_completed_own _ u _ _
  case drw x y n => exact SameAnswer.of_checked _ _ _ same (SameAnswer.of_completed_own _ u _ _)
  case ldB x => exact SameAnswer.of_checked _ _ _ same (SameAnswer.of_completed_own _ u _ _)
  case storeRegs x => exact SameAnswer.of_checked _ _ _ same (SameAnswer.of_completed_own _ u _ _)
  case loadRegs x => exact SameAnswer.of_checked _ _ _ same (SameAnswer.of_completed_own _ u _ _)
  all_goals exact SameAnswer.of_completed_own _ u _ _

/-- The same of two states that agree on every item. -/
theorem SameItems.sameAnswer_exec {s u : State} (h : SameItems s u) (i : Instr)
    (hr : u.randomByte = s.randomByte ∨ ∀ x kk, i ≠ .rnd x kk) :
    SameAnswer (exec i s) (exec i u) := by
  rw [h.eq_withOwnFieldsOf] at hr ⊢
  exact exec_withOwnFieldsOf i s u hr

/-- Settles O15, by the cases of the cycle, which the common fetch makes the same for both states. -/
theorem randomByteReachesOnlyRnd : Obligations.RandomByteReachesOnlyRnd := by
  intro s u h hr
  show SameAnswer (cycle s) (cycle u)
  unfold cycle
  rw [h.fetch_eq]
  split
  · next f hf => exact SameAnswer.of_faulted h f
  · next w hw =>
    split
    · next i hi =>
      refine h.sameAnswer_exec i (hr.imp Eq.symm fun hno x kk hx => hno w x kk hw ?_)
      rw [hi, hx]
    · next hn =>
      have hpc : u.pc = s.pc := by obtain ⟨-, -, -, hpc, -⟩ := h; exact hpc
      simp only [execUnknown, advance_eq, hpc]
      exact SameAnswer.of_completed h s.pc false

end Sys2Proof.Machine

/-! The family `40_control_flow.md`: the words an entry of the instruction table takes, and the skips. -/

namespace Sys2Proof

/-! ## The words an entry of the table takes (R76, R77, R78) -/

/-- The kinds and the instructions stand in the same order. -/
theorem Kind.ctorIdx_build (k : Kind) (f : Fields) : (k.build f).ctorIdx = k.ctorIdx := by
  cases k <;> rfl

theorem Kind.build_inj {k l : Kind} {f g : Fields} (h : k.build f = l.build g) : k = l := by
  have hidx : k.ctorIdx = l.ctorIdx := by rw [← k.ctorIdx_build f, h, l.ctorIdx_build g]
  rw [← Kind.ofNat_ctorIdx k, hidx, Kind.ofNat_ctorIdx]

/-- Entries whose patterns differ on a bit that both masks keep cover no common word. -/
theorem Row.not_covers_of_covers {q r : Row} {w : Word} (hne : q.pattern &&& r.mask ≠ r.pattern &&& q.mask)
    (hr : r.covers w = true) : q.covers w = false := by
  simp only [Row.covers, beq_iff_eq, beq_eq_false_iff_ne] at hr ⊢
  intro hq
  apply hne
  rw [← hq, ← hr]
  ac_rfl

/-- An entry is told by its kind. -/
theorem Row.eq_of_kind_eq {q r : Row} (hq : q ∈ table) (hr : r ∈ table) (h : q.kind = r.kind) : q = r :=
  List.inj_on_of_nodup_map table_kinds_nodup hq hr h

/-- A word decodes to the instruction an entry builds only if that entry covers it. -/
theorem covers_of_decodeWord {r : Row} (hr : r ∈ table) {w : Word} {f : Fields}
    (h : decodeWord w = some (r.kind.build f)) : r.covers w = true := by
  rw [decodeWord_eq, Option.map_eq_some_iff] at h
  obtain ⟨q, hfind, hbuild⟩ := h
  rw [← Row.eq_of_kind_eq (List.mem_of_find?_eq_some hfind) hr (Kind.build_inj hbuild)]
  exact List.find?_some (p := fun q : Row => q.covers w) hfind

/-- An entry takes each word it covers when every entry before it differs from it on a bit that both masks keep. -/
theorem decodeWord_of_covers {r : Row} (hr : r ∈ table)
    (hfirst : ∀ q ∈ table.takeWhile (· ≠ r), q.pattern &&& r.mask ≠ r.pattern &&& q.mask) {w : Word}
    (hw : r.covers w = true) : decodeWord w = some (r.kind.build (fieldsOf w)) := by
  obtain ⟨before, after, htable, hnotin⟩ := List.eq_append_cons_of_mem hr
  have hskip : ∀ q ∈ before, q.covers w = false := by
    intro q hq
    refine Row.not_covers_of_covers (hfirst q ?_) hw
    rw [htable, List.takeWhile_append_of_pos fun p hp => decide_eq_true (ne_of_mem_of_not_mem hp hnotin)]
    exact List.mem_append_left _ hq
  have hfind : table.find? (fun q => q.covers w) = some r :=
    List.find?_eq_some_iff_append.2 ⟨hw, before, after, htable, fun q hq => by rw [hskip q hq]; rfl⟩
  rw [decodeWord_eq, hfind, Option.map_some]

end Sys2Proof

namespace Sys2Proof.Machine

/-- The rule of R76 to R78 for one entry: its pattern under its mask is the encoding of what it builds. -/
theorem encodedBy_of_row {r : Row} (hr : r ∈ table)
    (hfirst : ∀ q ∈ table.takeWhile (· ≠ r), q.pattern &&& r.mask ≠ r.pattern &&& q.mask) :
    EncodedBy r.mask r.pattern r.kind.build := fun w => by
  have hcov : r.covers w = true ↔ w &&& r.mask = r.pattern := beq_iff_eq
  rw [← hcov]
  exact ⟨covers_of_decodeWord hr, decodeWord_of_covers hr hfirst⟩

/-! ## The skips (R28, R104 to R107) -/

theorem KeepsBut.refl (f : Footprint) (s : State) : KeepsBut f s s :=
  ⟨fun _ _ => rfl, fun _ _ => rfl, fun _ => rfl, fun _ _ => rfl, fun _ => rfl, fun _ => rfl, fun _ => rfl,
    fun _ _ => rfl, fun _ => rfl, fun _ => rfl, fun _ => rfl, rfl, rfl⟩

/-- The end of a cycle writes `pc` and the reply, which are in no frame. -/
theorem KeepsBut.completed {f : Footprint} {s u : State} (h : KeepsBut f s u) (pcH : Word) (c : Bool) :
    KeepsBut f s (u.completed pcH c) := h

/-- A skip advances by 4 when its condition `p` holds, else by 2, and changes nothing else. -/
theorem completes_of_skipIf {i : Instr} {s : State} {taken : Bool} {p : Prop} [Decidable p]
    (he : exec i s = skipIf taken s) (hp : taken = true ↔ p) :
    Completes i s (if p then s.pc + 4#16 else s.pc + 2#16) false {} (fun _ => True) := by
  refine ⟨_, he, ?_, rfl, (KeepsBut.refl {} s).completed _ _, trivial⟩
  rw [State.completed_pc]
  by_cases h : p
  · rw [if_pos (hp.2 h), if_pos h, BitVec.add_assoc]
    rfl
  · rw [if_neg (mt hp.1 h), if_neg h]

/-- Settles O23: the two table entries, and the skip on the comparison with the byte. -/
theorem skipsOnImmediate : Obligations.SkipsOnImmediate :=
  ⟨encodedBy_of_row (r := ⟨.seImm, 0xF000, 0x3000⟩) (by decide) (by decide),
    encodedBy_of_row (r := ⟨.sneImm, 0xF000, 0x4000⟩) (by decide) (by decide),
    fun _ _ _ => ⟨completes_of_skipIf rfl beq_iff_eq, completes_of_skipIf rfl bne_iff_ne⟩⟩

/-- Settles O24: the two table entries, and the skip on the comparison of the registers. -/
theorem skipsOnRegisters : Obligations.SkipsOnRegisters :=
  ⟨encodedBy_of_row (r := ⟨.seReg, 0xF00F, 0x5000⟩) (by decide) (by decide),
    encodedBy_of_row (r := ⟨.sneReg, 0xF00F, 0x9000⟩) (by decide) (by decide),
    fun _ _ _ => ⟨completes_of_skipIf rfl beq_iff_eq, completes_of_skipIf rfl bne_iff_ne⟩⟩

end Sys2Proof.Machine

/-! The family `41_alu.md`: what an instruction of it depends on, and the writes of one register without a flag. -/

namespace Sys2Proof.Machine

/-! ## What the family reads and writes (R154) -/

/-- The registers an instruction leaves when it runs on the reset state with these registers and this random byte. It takes
no state, so no other item of one can reach it. -/
def registersAfter (i : Instr) (v : Vector Byte 16) (r : Byte) : Vector Byte 16 :=
  match exec i { State.reset with v := v, host := [.cycle r] } with
  | .next t => t.v
  | _ => v

/-- Everything an instruction of `41_alu.md` can do: its cycle completes, with the registers that the registers and the
random byte give; only `RND` counts a draw. -/
theorem exec_of_isAlu {i : Instr} (h : isAlu i = true) (s : State) :
    ∃ n, exec i s =
      .next ({ s with v := registersAfter i s.v s.randomByte, draws := n }.completed s.pc false) := by
  cases i
  case rnd x kk => exact ⟨s.draws + 1, rfl⟩
  case ldImm | addImm | ldReg | orReg | andReg | xorReg => exact ⟨s.draws, rfl⟩
  case addReg | sub | subn | shr | shl => exact ⟨s.draws, rfl⟩
  all_goals cases h

/-- Settles O35: both states answer with `registersAfter` of the registers and the byte they share. -/
theorem aluTouchesOnlyRegisters : Obligations.AluTouchesOnlyRegisters := by
  intro i s u h hv hr
  obtain ⟨n, hs⟩ := exec_of_isAlu h s
  obtain ⟨m, hu⟩ := exec_of_isAlu h u
  refine ⟨_, _, hs, hu, ?_, rfl, rfl, rfl, rfl, rfl, rfl, rfl, rfl⟩
  simp only [State.completed_v, hv, hr]

/-! ## One register written, no flag (R142 to R147) -/

/-- A register of the footprint may be written; no other item changes. -/
theorem KeepsBut.setV {f : Footprint} {s u : State} (h : KeepsBut f s u) {x : Reg} (hx : x ∈ f.regs) (b : Byte) :
    KeepsBut f s (u.setV x b) := by
  obtain ⟨hregs, hrest⟩ := h
  refine ⟨fun j hj => ?_, hrest⟩
  rw [State.getV_setV_of_ne u b (ne_of_mem_of_not_mem hx hj).symm]
  exact hregs j hj

/-- A plain instruction advances by 2 and reports no change of the screen (R28, R39). -/
theorem completes_of_advance {i : Instr} {s u : State} {f : Footprint} {post : State → Prop}
    (he : exec i s = advance u) (hpc : u.pc = s.pc) (hkeeps : KeepsBut f s u) (hpost : post (u.completed u.pc false)) :
    Completes i s (s.pc + 2#16) false f post :=
  ⟨_, he, by rw [State.completed_pc, hpc], rfl, hkeeps.completed _ _, hpost⟩

/-- An instruction that writes `b` to `V[x]` alone: what holds of `b` holds of the register after it. -/
theorem completes_of_setV {i : Instr} {s : State} {x : Reg} {b : Byte} {p : Byte → Prop}
    (he : exec i s = advance (s.setV x b)) (hp : p b) :
    Completes i s (s.pc + 2#16) false { regs := [x] } (fun t => p (t.getV x)) := by
  refine completes_of_advance he rfl ((KeepsBut.refl _ s).setV (List.mem_singleton_self x) b) ?_
  rw [State.getV_completed, State.getV_setV_same]
  exact hp

/-- Settles O27: the table entry, and the write of the byte. -/
theorem ldImmLoadsTheByte : Obligations.LdImmLoadsTheByte :=
  ⟨encodedBy_of_row (r := ⟨.ldImm, 0xF000, 0x6000⟩) (by decide) (by decide),
    fun _ kk _ => completes_of_setV (p := (· = kk)) rfl rfl⟩

/-- Settles O28: the table entry, and the write of the sum, which bytes take modulo 256. -/
theorem addImmWrapsWithoutFlag : Obligations.AddImmWrapsWithoutFlag :=
  ⟨encodedBy_of_row (r := ⟨.addImm, 0xF000, 0x7000⟩) (by decide) (by decide),
    fun x kk s => completes_of_setV (p := fun b => b.toNat = ((s.getV x).toNat + kk.toNat) % 256) rfl
      (BitVec.toNat_add _ _)⟩

/-- Settles O29: the table entry, and the write of the other register's value. -/
theorem ldRegCopies : Obligations.LdRegCopies :=
  ⟨encodedBy_of_row (r := ⟨.ldReg, 0xF00F, 0x8000⟩) (by decide) (by decide),
    fun _ y s => completes_of_setV (p := (· = s.getV y)) rfl rfl⟩

/-- An instruction that writes `b` to `V[x]` alone, where each bit of `b` is `g` of the bits of `V[x]` and `V[y]`. -/
theorem completes_of_setV_bitwise {i : Instr} {s : State} {x y : Reg} {b : Byte} (g : Bool → Bool → Bool)
    (he : exec i s = advance (s.setV x b))
    (hb : ∀ k, b.getLsbD k = g ((s.getV x).getLsbD k) ((s.getV y).getLsbD k)) :
    Completes i s (s.pc + 2#16) false { regs := [x] }
      (fun t => ∀ k, (t.getV x).getLsbD k = g ((s.getV x).getLsbD k) ((s.getV y).getLsbD k)) :=
  completes_of_setV (p := fun b => ∀ k, b.getLsbD k = g ((s.getV x).getLsbD k) ((s.getV y).getLsbD k)) he hb

/-- Settles O30: the three table entries, and the operation on each bit of the two operands. -/
theorem logicIsBitwiseWithoutFlag : Obligations.LogicIsBitwiseWithoutFlag :=
  ⟨encodedBy_of_row (r := ⟨.orReg, 0xF00F, 0x8001⟩) (by decide) (by decide),
    encodedBy_of_row (r := ⟨.andReg, 0xF00F, 0x8002⟩) (by decide) (by decide),
    encodedBy_of_row (r := ⟨.xorReg, 0xF00F, 0x8003⟩) (by decide) (by decide),
    fun _ _ _ =>
      ⟨completes_of_setV_bitwise or rfl fun _ => BitVec.getLsbD_or,
        completes_of_setV_bitwise and rfl fun _ => BitVec.getLsbD_and,
        completes_of_setV_bitwise bne rfl fun _ => BitVec.getLsbD_xor⟩⟩

end Sys2Proof.Machine

/-! The family `42_index_memory.md`: the writes of `I` alone. -/

namespace Sys2Proof.Machine

/-! ## The values `I` takes (R74, R182) -/

/-- Zero extension keeps every 12-bit address (R74). -/
@[simp] theorem toNat_absolute (addr : Addr12) : (absolute addr).toNat = addr.toNat :=
  BitVec.toNat_setWidth_of_le (by decide)

/-- Five times the whole byte: the product is at most 1275, so 16 bits hold it (R182). -/
@[simp] theorem toNat_glyphAddress (b : Byte) : (glyphAddress b).toNat = b.toNat * 5 := by
  have hb : b.toNat < 256 := b.isLt
  have hfive : (5#16).toNat = 5 := rfl
  rw [glyphAddress, BitVec.toNat_mul, BitVec.toNat_setWidth_of_le (by decide), hfive]
  exact Nat.mod_eq_of_lt (by omega)

/-! ## `I` written, nothing else (R180 to R182) -/

/-- `I` may be written where the footprint has it; no other item changes. -/
theorem KeepsBut.setI {f : Footprint} {s u : State} (h : KeepsBut f s u) (hf : f.index = true) (a : Word) :
    KeepsBut f s { u with i := a } := by
  obtain ⟨hregs, hbytes, -, hrest⟩ := h
  exact ⟨hregs, hbytes, fun hno => absurd (hf.symm.trans hno) Bool.noConfusion, hrest⟩

/-- An instruction that writes `a` to `I` alone: what holds of `a` holds of `I` after it. -/
theorem completes_of_setI {i : Instr} {s : State} {a : Word} {p : Word → Prop}
    (he : exec i s = advance { s with i := a }) (hp : p a) :
    Completes i s (s.pc + 2#16) false { index := true } (fun t => p t.i) :=
  completes_of_advance he rfl ((KeepsBut.refl _ s).setI rfl a) hp

/-- Settles O36: the table entry, and the write of the zero-extended address. -/
theorem ldILoadsTheAddress : Obligations.LdILoadsTheAddress :=
  ⟨encodedBy_of_row (r := ⟨.ldI, 0xF000, 0xA000⟩) (by decide) (by decide),
    fun addr _ => completes_of_setI (p := fun a => a.toNat = addr.toNat) rfl (toNat_absolute addr)⟩

/-- Settles O38: the table entry, and the write of five times the register's whole byte. -/
theorem ldFPointsAtTheGlyph : Obligations.LdFPointsAtTheGlyph :=
  ⟨encodedBy_of_row (r := ⟨.ldF, 0xF0FF, 0xF029⟩) (by decide) (by decide),
    fun x s => completes_of_setI (p := fun a => a.toNat = (s.getV x).toNat * 5) rfl
      (toNat_glyphAddress (s.getV x))⟩

end Sys2Proof.Machine

/-! The family `44_input_timers.md`: the frame of every instruction, the timer loads, and the key wait. -/

namespace Sys2Proof.Machine

/-! ## One frame rule per write: what the footprint names may change, all else is kept -/

theorem KeepsBut.setDT {f : Footprint} {s u : State} (h : KeepsBut f s u) (hf : f.delay = true) (b : Byte) :
    KeepsBut f s { u with dt := b } := by
  obtain ⟨hregs, hbytes, hindex, hentries, hdepth, -, hrest⟩ := h
  exact ⟨hregs, hbytes, hindex, hentries, hdepth, fun hno => Bool.noConfusion (hf.symm.trans hno), hrest⟩

theorem KeepsBut.setST {f : Footprint} {s u : State} (h : KeepsBut f s u) (hf : f.sound = true) (b : Byte) :
    KeepsBut f s { u with st := b } := by
  obtain ⟨hregs, hbytes, hindex, hentries, hdepth, hdelay, -, hrest⟩ := h
  exact ⟨hregs, hbytes, hindex, hentries, hdepth, hdelay, fun hno => Bool.noConfusion (hf.symm.trans hno), hrest⟩

theorem KeepsBut.setFb {f : Footprint} {s u : State} (h : KeepsBut f s u) (hf : f.screen = true) (fb : Frame) :
    KeepsBut f s { u with fb := fb } := by
  obtain ⟨hregs, hbytes, hindex, hentries, hdepth, hdelay, hsound, -, hrest⟩ := h
  exact ⟨hregs, hbytes, hindex, hentries, hdepth, hdelay, hsound, fun hno => Bool.noConfusion (hf.symm.trans hno),
    hrest⟩

theorem KeepsBut.setLatch {f : Footprint} {s u : State} (h : KeepsBut f s u) (hf : f.latch = true) (k : Option Key) :
    KeepsBut f s { u with latch := k } := by
  obtain ⟨hregs, hbytes, hindex, hentries, hdepth, hdelay, hsound, hscreen, -, hrest⟩ := h
  exact ⟨hregs, hbytes, hindex, hentries, hdepth, hdelay, hsound, hscreen,
    fun hno => Bool.noConfusion (hf.symm.trans hno), hrest⟩

theorem KeepsBut.setDraws {f : Footprint} {s u : State} (h : KeepsBut f s u) (hf : f.draws = true) (n : Nat) :
    KeepsBut f s { u with draws := n } := by
  obtain ⟨hregs, hbytes, hindex, hentries, hdepth, hdelay, hsound, hscreen, hlatch, hhalt, -, hown⟩ := h
  exact ⟨hregs, hbytes, hindex, hentries, hdepth, hdelay, hsound, hscreen, hlatch, hhalt,
    fun hno => Bool.noConfusion (hf.symm.trans hno), hown⟩

/-- Taking a fault writes `halt` alone (R271). -/
theorem KeepsBut.faulted {f : Footprint} {s u : State} (h : KeepsBut f s u) (hf : f.halt = true) (e : CoreFault) :
    KeepsBut f s (u.faulted e) := by
  obtain ⟨hregs, hbytes, hindex, hentries, hdepth, hdelay, hsound, hscreen, hlatch, -, hown⟩ := h
  exact ⟨hregs, hbytes, hindex, hentries, hdepth, hdelay, hsound, hscreen, hlatch,
    fun hno => Bool.noConfusion (hf.symm.trans hno), hown⟩

/-- A run of stores keeps every byte but those at the addresses it stores to. -/
theorem KeepsBut.writeList {f : Footprint} {s u : State} (h : KeepsBut f s u) {base : Nat} {bytes : List Byte}
    (hb : ∀ k, k < bytes.length → base + k ∈ f.bytes) :
    KeepsBut f s { u with mem := u.mem.writeList base bytes } := by
  obtain ⟨hregs, hbytes, hrest⟩ := h
  refine ⟨hregs, fun a ha => ?_, hrest⟩
  have houtside : a < base ∨ base + bytes.length ≤ a := by
    by_contra hin
    have hmem := hb (a - base) (by omega)
    rw [Nat.add_sub_cancel' (by omega)] at hmem
    exact ha hmem
  exact (Memory.read_writeList_of_outside u.mem base bytes houtside).trans (hbytes a ha)

/-- Loading registers keeps those from number `count` on (R185). -/
theorem KeepsBut.loadFrom {f : Footprint} {s u : State} (h : KeepsBut f s u) (m : Memory) (base : Nat) {count : Nat}
    (hr : ∀ j : Reg, j.val < count → j ∈ f.regs) :
    KeepsBut f s { u with v := loadFrom m base u.v count } := by
  obtain ⟨hregs, hrest⟩ := h
  refine ⟨fun j hj => ?_, hrest⟩
  have hge : ¬ j.val < count := fun hlt => hj (hr j hlt)
  have hkept := loadFrom_getElem m base u.v count j.val j.isLt
  rw [if_neg hge] at hkept
  exact hkept.trans (hregs j hj)

/-- A push writes the entry at `sp`, and `sp` (R30). -/
theorem KeepsBut.of_push {f : Footprint} {s t : State} {w : Word} (h : s.push w = some t)
    (hentry : s.sp.val ∈ f.entries) (hdepth : f.depth = true) : KeepsBut f s t := by
  obtain ⟨hroom, rfl⟩ := (State.push_eq_some_iff s t w).1 h
  obtain ⟨hregs, hbytes, hindex, -, -, hrest⟩ := KeepsBut.refl f s
  refine ⟨hregs, hbytes, hindex, fun j hj => ?_, fun hno => Bool.noConfusion (hdepth.symm.trans hno), hrest⟩
  exact Vector.getElem_set_ne hroom j.isLt (ne_of_mem_of_not_mem hentry hj)

/-- A pop writes `sp` and no stack entry (R31, decision D26). -/
theorem KeepsBut.of_pop {f : Footprint} {s t : State} {w : Word} (h : s.pop = some (w, t)) (hdepth : f.depth = true) :
    KeepsBut f s t := by
  obtain ⟨-, -, rfl⟩ := (State.pop_eq_some_iff s t w).1 h
  obtain ⟨hregs, hbytes, hindex, hentries, -, hrest⟩ := KeepsBut.refl f s
  exact ⟨hregs, hbytes, hindex, hentries, fun hno => Bool.noConfusion (hdepth.symm.trans hno), hrest⟩

/-! ## The members of the footprints that are lists -/

theorem add_mem_addressesFromI (s : State) {count k : Nat} (h : k < count) :
    indexed s 0 + k ∈ addressesFromI s count :=
  List.mem_map.2 ⟨k, List.mem_range.2 h, rfl⟩

theorem mem_regsUpTo {x j : Reg} : j ∈ regsUpTo x ↔ j ≤ x := by
  simp [regsUpTo]

/-! ## The frame of every instruction -/

/-- Whatever next state the result is, all outside the footprint is as in `s`. -/
def AnswersKeeping (f : Footprint) (s : State) (r : Result) : Prop := ∀ t, r = .next t → KeepsBut f s t

theorem AnswersKeeping.of_next {f : Footprint} {s t : State} (h : KeepsBut f s t) : AnswersKeeping f s (.next t) := by
  rintro _ ⟨⟩
  exact h

theorem AnswersKeeping.of_completed {f : Footprint} {s u : State} (h : KeepsBut f s u) (pcH : Word) (c : Bool) :
    AnswersKeeping f s (.next (u.completed pcH c)) :=
  .of_next (h.completed pcH c)

theorem AnswersKeeping.of_faulted {f : Footprint} (hf : f.halt = true) (s : State) (e : CoreFault) :
    AnswersKeeping f s (.next (s.faulted e)) :=
  .of_next ((KeepsBut.refl f s).faulted hf e)

/-- The address check adds `halt` to what the instruction it guards may write. -/
theorem AnswersKeeping.of_checked {f : Footprint} {s : State} {rest : Result} (hf : f.halt = true)
    (h : AnswersKeeping f s rest) (kind : AccessKind) (base count : Nat) :
    AnswersKeeping f s (checked kind base count s rest) := by
  rw [checked_eq]
  split
  · exact h
  · exact .of_faulted hf s _

theorem exec_answersKeeping_mayWrite (i : Instr) (s : State) : AnswersKeeping (mayWrite i s) s (exec i s) := by
  have same := KeepsBut.refl (mayWrite i s) s
  cases i
  case jp | jpV0 | seImm | sneImm | seReg | sneReg | skp | sknp => exact .of_completed same _ _
  case sys addr => exact .of_faulted rfl s _
  case ret =>
    simp only [exec, execRet]
    split
    · exact .of_faulted rfl s _
    · next hpop => exact .of_completed (.of_pop hpop rfl) _ _
  case call addr =>
    simp only [exec, execCall]
    split
    · exact .of_faulted rfl s _
    · next hpush => exact .of_completed (.of_push hpush (List.mem_singleton_self _) rfl) _ _
  case ldImm x _ | addImm x _ | ldReg x _ | orReg x _ | andReg x _ | xorReg x _ | ldVxDT x =>
    exact .of_completed (same.setV (List.mem_singleton_self x) _) _ _
  case addReg x _ | sub x _ | shr x _ | subn x _ | shl x _ =>
    have hx : x ∈ [x, vf] := List.mem_cons_self
    have hvf : vf ∈ [x, vf] := List.mem_cons_of_mem x (List.mem_singleton_self vf)
    exact .of_completed ((same.setV hx _).setV hvf _) _ _
  case rnd x kk => exact .of_completed ((same.setV (List.mem_singleton_self x) _).setDraws rfl _) _ _
  case ldI | addI | ldF => exact .of_completed (same.setI rfl _) _ _
  case ldB x =>
    have hstored := same.writeList (bytes := decimalDigits (s.getV x)) fun _ hk => add_mem_addressesFromI s hk
    exact .of_checked rfl (.of_completed hstored _ _) _ _ _
  case storeRegs x =>
    have hstored := same.writeList (bytes := registersUpTo x s) fun _ hk =>
      add_mem_addressesFromI s (registersUpTo_length x s ▸ hk)
    exact .of_checked rfl (.of_completed (hstored.setI rfl _) _ _) _ _ _
  case loadRegs x =>
    have hloaded := same.loadFrom s.mem (indexed s 0) fun _ hj => mem_regsUpTo.2 (Nat.le_of_lt_succ hj)
    exact .of_checked rfl (.of_completed (hloaded.setI rfl _) _ _) _ _ _
  case cls => exact .of_completed (same.setFb rfl _) _ _
  case drw x y n =>
    exact .of_checked rfl (.of_completed ((same.setFb rfl _).setV (List.mem_singleton_self vf) _) _ _) _ _ _
  case ldDTVx x => exact .of_completed (same.setDT rfl _) _ _
  case ldSTVx x => exact .of_completed (same.setST rfl _) _ _
  case ldVxK x =>
    simp only [exec, execLdVxK]
    split
    · exact .of_next same
    · exact .of_completed ((same.setV (List.mem_singleton_self x) _).setLatch rfl _) _ _

/-- Settles O16, instruction by instruction, each by the frame rules of what it writes. -/
theorem instructionsKeepAllButTheirFootprint : Obligations.InstructionsKeepAllButTheirFootprint :=
  fun i s => exec_answersKeeping_mayWrite i s

/-! ## The timer loads (R242, R244, R245) -/

/-- Settles O51: the three table entries, and the write of the one byte each copies. -/
theorem timerLoadsCopy : Obligations.TimerLoadsCopy :=
  ⟨encodedBy_of_row (r := ⟨.ldVxDT, 0xF0FF, 0xF007⟩) (by decide) (by decide),
    encodedBy_of_row (r := ⟨.ldDTVx, 0xF0FF, 0xF015⟩) (by decide) (by decide),
    encodedBy_of_row (r := ⟨.ldSTVx, 0xF0FF, 0xF018⟩) (by decide) (by decide),
    fun x s =>
      ⟨completes_of_setV (p := (· = s.dt)) rfl rfl,
        completes_of_advance rfl rfl ((KeepsBut.refl _ s).setDT rfl (s.getV x)) rfl,
        completes_of_advance rfl rfl ((KeepsBut.refl _ s).setST rfl (s.getV x)) rfl⟩⟩

/-! ## The key wait (R243) -/

theorem exec_ldVxK_of_latch_eq_some {s : State} {k : Key} (h : s.latch = some k) (x : Reg) :
    exec (.ldVxK x) s = advance { s.setV x (k.setWidth 8) with latch := none } := by
  simp only [exec, execLdVxK, h]

theorem completes_ldVxK {s : State} {k : Key} (h : s.latch = some k) (x : Reg) :
    Completes (.ldVxK x) s (s.pc + 2#16) false { regs := [x], latch := true } (fun t =>
      (t.getV x).toNat = k.toNat ∧ t.latch = none) := by
  have hkeeps := ((KeepsBut.refl { regs := [x], latch := true } s).setV (List.mem_singleton_self x)
    (k.setWidth 8)).setLatch rfl none
  refine completes_of_advance (exec_ldVxK_of_latch_eq_some h x) rfl hkeeps ⟨?_, rfl⟩
  calc ((s.setV x (k.setWidth 8)).getV x).toNat
    _ = (k.setWidth 8).toNat := by rw [State.getV_setV_same]
    _ = k.toNat := BitVec.toNat_setWidth_of_le (by decide)

/-- Settles O52: the table entry, the latched key taken, and the stall with none. -/
theorem keyWaitTakesTheKey : Obligations.KeyWaitTakesTheKey :=
  ⟨encodedBy_of_row (r := ⟨.ldVxK, 0xF0FF, 0xF00A⟩) (by decide) (by decide),
    fun x _ _ h => completes_ldVxK h x,
    fun x s h => ⟨s.stalled, (exec_ldVxK_eq_stalled_iff x s).2 h, rfl, SameItems.of_stalled s, rfl, rfl⟩⟩

end Sys2Proof.Machine

/-! The family `70_reset_and_hazards.md`: where a reset puts the program image. -/

namespace Sys2Proof.Machine

/-! ## A pending `Reset` (R300, R303) -/

/-- The state a pending `Reset` leaves when its image fits; what the host has still to do stays. -/
theorem step_reset {s : State} {image : List Byte} {rest : List HostOp} (hhost : s.host = .reset image :: rest)
    (hfits : image.length ≤ maxImage) :
    step s = .next { State.resetWith image with host := rest, schedule := s.schedule, draws := s.draws } := by
  rw [step_of_pending s hhost]
  exact if_pos hfits

/-! ## Memory after a reset (R52, R302) -/

/-- Beyond the font, memory without an image is zero (R52). -/
theorem Memory.initial_eq_zero {a : Nat} (h : 80 ≤ a) : Memory.initial a = 0#8 :=
  if_neg (Nat.not_lt.2 h)

theorem read_resetWith_image (image : List Byte) {j : Nat} (h : j < image.length) :
    (State.resetWith image).mem.read (Config.progStart + j) = image[j] :=
  Memory.read_writeList_of_lt [] Config.progStart image h

/-- The image writes nothing past its end, and the font ends below `0x200`. -/
theorem read_resetWith_beyond (image : List Byte) {a : Nat} (h : Config.progStart + image.length ≤ a) :
    (State.resetWith image).mem.read a = 0#8 :=
  calc (State.resetWith image).mem.read a
    _ = Memory.read [] a := Memory.read_writeList_of_outside [] Config.progStart image (.inr h)
    _ = Memory.initial a := Memory.read_nil a
    _ = 0#8 := Memory.initial_eq_zero (le_trans (by decide) (Nat.le_of_add_right_le h))

/-- Settles O55: the image is stored from `0x200` on, over reset contents that are zero there. -/
theorem resetPlacesTheImage : Obligations.ResetPlacesTheImage := fun _ image _ hhost hfits =>
  ⟨_, step_reset hhost hfits, fun _ hj => read_resetWith_image image hj, fun _ ha _ => read_resetWith_beyond image ha⟩

end Sys2Proof.Machine

/-! The encoding: the table's overlaps, the round trip between words and instructions, and the unknown words. -/

namespace Sys2Proof

/-! ## The overlaps of the table (R78) -/

/-- Entries that agree on every bit both masks keep are `SYS` with `CLS` or with `RET`. -/
theorem table_patterns_agree : ∀ r ∈ table, ∀ q ∈ table, r ≠ q → q.pattern &&& r.mask = r.pattern &&& q.mask →
    (r.kind = .cls ∧ q.kind = .sys ∨ r.kind = .sys ∧ q.kind = .cls) ∨
    (r.kind = .ret ∧ q.kind = .sys ∨ r.kind = .sys ∧ q.kind = .ret) := by
  decide

/-- An entry whose mask keeps every bit covers its pattern alone. -/
theorem Row.eq_pattern_of_covers {r : Row} {k : Kind} {p w : Word} (hr : r ∈ table) (hk : r.kind = k)
    (hrow : ⟨k, 0xFFFF, p⟩ ∈ table) (hw : r.covers w = true) : w = p := by
  obtain rfl : r = ⟨k, 0xFFFF, p⟩ := Row.eq_of_kind_eq hr hrow hk
  have hmask : w &&& 0xFFFF#16 = p := beq_iff_eq.1 hw
  exact (BitVec.and_allOnes (x := w)).symm.trans hmask

/-- Settles O4: two entries that cover one word agree on every bit both masks keep. -/
theorem tableEntriesOverlapOnlyAtSys : Obligations.TableEntriesOverlapOnlyAtSys := by
  intro r hr q hq w hrw hqw hne
  have hagree : q.pattern &&& r.mask = r.pattern &&& q.mask := by
    by_contra h
    exact Bool.noConfusion ((Row.not_covers_of_covers h hrw).symm.trans hqw)
  have hcls : (⟨.cls, 0xFFFF, 0x00E0⟩ : Row) ∈ table := by decide
  have hret : (⟨.ret, 0xFFFF, 0x00EE⟩ : Row) ∈ table := by decide
  refine (table_patterns_agree r hr q hq hne hagree).imp (fun h => ⟨?_, h⟩) (fun h => ⟨?_, h⟩)
  · obtain ⟨hk, -⟩ | ⟨-, hk⟩ := h
    · exact Row.eq_pattern_of_covers hr hk hcls hrw
    · exact Row.eq_pattern_of_covers hq hk hcls hqw
  · obtain ⟨hk, -⟩ | ⟨-, hk⟩ := h
    · exact Row.eq_pattern_of_covers hr hk hret hrw
    · exact Row.eq_pattern_of_covers hq hk hret hqw

/-- The entry that takes a word is the only one that covers it, but for `SYS` at the two words of `CLS` and `RET`. -/
theorem eq_or_sys_of_find? {q r : Row} {w : Word} (hq : table.find? (fun q => q.covers w) = some q) (hr : r ∈ table)
    (hw : r.covers w = true) : q = r ∨ r.kind = .sys ∧ (w = 0x00E0#16 ∨ w = 0x00EE#16) := by
  have hqw : q.covers w = true := List.find?_some (p := fun q : Row => q.covers w) hq
  by_cases hne : q = r
  · exact .inl hne
  obtain ⟨rfl, ⟨-, hk⟩ | ⟨hk, -⟩⟩ | ⟨rfl, ⟨-, hk⟩ | ⟨hk, -⟩⟩ :=
    tableEntriesOverlapOnlyAtSys q (List.mem_of_find?_eq_some hq) r hr w hqw hw hne
  · exact .inr ⟨hk, .inl rfl⟩
  · have hfirst : table.find? (fun q => q.covers 0x00E0#16) = some ⟨.cls, 0xFFFF, 0x00E0⟩ := by decide
    cases hfirst.symm.trans hq
    cases hk
  · exact .inr ⟨hk, .inr rfl⟩
  · have hfirst : table.find? (fun q => q.covers 0x00EE#16) = some ⟨.ret, 0xFFFF, 0x00EE⟩ := by decide
    cases hfirst.symm.trans hq
    cases hk

/-- A word decodes to what any entry that covers it builds, but for `SYS` at the two words of `CLS` and `RET`. -/
theorem decodeWord_of_covers_of_not_sys {r : Row} (hr : r ∈ table) {w : Word} (hw : r.covers w = true)
    (hsys : ¬(r.kind = .sys ∧ (w = 0x00E0#16 ∨ w = 0x00EE#16))) :
    decodeWord w = some (r.kind.build (fieldsOf w)) := by
  obtain ⟨q, hq⟩ := Option.isSome_iff_exists.1
    ((List.find?_isSome (p := fun q : Row => q.covers w)).2 ⟨r, hr, hw⟩)
  rw [decodeWord_eq, hq, Option.map_some, (eq_or_sys_of_find? hq hr hw).resolve_right hsys]

/-! ## Decoding an encoded instruction (R70, R79) -/

theorem rowMatch : ∀ i : Instr, Laws.RowMatch.Statement i
  | .cls => Laws.RowMatch.cls
  | .ret => Laws.RowMatch.ret
  | .sys addr => Laws.RowMatch.sys addr
  | .jp addr => Laws.RowMatch.jp addr
  | .call addr => Laws.RowMatch.call addr
  | .seImm x kk => Laws.RowMatch.seImm x kk
  | .sneImm x kk => Laws.RowMatch.sneImm x kk
  | .seReg x y => Laws.RowMatch.seReg x y
  | .ldImm x kk => Laws.RowMatch.ldImm x kk
  | .addImm x kk => Laws.RowMatch.addImm x kk
  | .ldReg x y => Laws.RowMatch.ldReg x y
  | .orReg x y => Laws.RowMatch.orReg x y
  | .andReg x y => Laws.RowMatch.andReg x y
  | .xorReg x y => Laws.RowMatch.xorReg x y
  | .addReg x y => Laws.RowMatch.addReg x y
  | .sub x y => Laws.RowMatch.sub x y
  | .shr x y => Laws.RowMatch.shr x y
  | .subn x y => Laws.RowMatch.subn x y
  | .shl x y => Laws.RowMatch.shl x y
  | .sneReg x y => Laws.RowMatch.sneReg x y
  | .ldI addr => Laws.RowMatch.ldI addr
  | .jpV0 addr => Laws.RowMatch.jpV0 addr
  | .rnd x kk => Laws.RowMatch.rnd x kk
  | .drw x y n => Laws.RowMatch.drw x y n
  | .skp x => Laws.RowMatch.skp x
  | .sknp x => Laws.RowMatch.sknp x
  | .ldVxDT x => Laws.RowMatch.ldVxDT x
  | .ldVxK x => Laws.RowMatch.ldVxK x
  | .ldDTVx x => Laws.RowMatch.ldDTVx x
  | .ldSTVx x => Laws.RowMatch.ldSTVx x
  | .addI x => Laws.RowMatch.addI x
  | .ldF x => Laws.RowMatch.ldF x
  | .ldB x => Laws.RowMatch.ldB x
  | .storeRegs x => Laws.RowMatch.storeRegs x
  | .loadRegs x => Laws.RowMatch.loadRegs x

theorem decodeWord_encode {i : Instr} (hwf : i.wellFormed = true) : decodeWord (encode i) = some i := by
  obtain ⟨r, hr, hw, hbuild⟩ := rowMatch i
  rw [decodeWord_of_covers_of_not_sys hr hw, hbuild]
  rintro ⟨hk, he⟩
  rw [hk] at hbuild
  obtain he | he := he
  all_goals
    rw [← hbuild, he] at hwf
    exact absurd hwf (by decide)

/-- A word put back together from its two bytes (R55). -/
theorem wordOfBytes_of_halves (w : Word) : wordOfBytes (w.extractLsb' 8 8) (w.extractLsb' 0 8) = w := by
  apply BitVec.eq_of_toNat_eq
  rw [wordOfBytes, append_toNat, BitVec.extractLsb'_toNat, BitVec.extractLsb'_toNat, Nat.shiftRight_eq_div_pow,
    Nat.shiftRight_eq_div_pow]
  have := w.isLt
  omega

/-- Two bytes that are an instruction decode to it, with nothing left over. -/
theorem decodeBytes_pair_eq_ok_iff {hi lo : Byte} {i : Instr} :
    decodeBytes [hi, lo] = .ok (i, []) ↔ decodeWord (wordOfBytes hi lo) = some i := by
  cases h : decodeWord (wordOfBytes hi lo) <;> simp [decodeBytes, h]

/-- Settles O1: the entry of the instruction covers its word, and takes it unless the term is ill-formed. -/
theorem decodeInvertsEncode : Obligations.DecodeInvertsEncode := fun i hwf => by
  rw [wordBytes, decodeBytes_pair_eq_ok_iff, wordOfBytes_of_halves]
  exact decodeWord_encode hwf

/-! ## A word from its fields (R71, R72) -/

/-- The opcode digit of a word, `w[15:12]`. -/
def opOf (w : Word) : BitVec 4 := w.extractLsb' 12 4

theorem opOf_toNat (w : Word) : (opOf w).toNat = w.toNat / 4096 := by
  rw [opOf, BitVec.extractLsb'_toNat, Nat.shiftRight_eq_div_pow]
  have := w.isLt
  omega

theorem encNNN_fieldsOf (w : Word) : encNNN (opOf w) (fieldsOf w).addr = w := by
  apply BitVec.eq_of_toNat_eq
  rw [encNNN_toNat, opOf_toNat, fieldsOf_addr_toNat]
  omega

theorem encXKK_fieldsOf (w : Word) : encXKK (opOf w) (fieldsOf w).x (fieldsOf w).kk = w := by
  apply BitVec.eq_of_toNat_eq
  rw [encXKK_toNat, opOf_toNat, fieldsOf_x_val, fieldsOf_kk_toNat]
  omega

theorem encX_fieldsOf (w : Word) : encX (opOf w) (fieldsOf w).x (fieldsOf w).kk = w := encXKK_fieldsOf w

theorem encXYN_fieldsOf (w : Word) : encXYN (opOf w) (fieldsOf w).x (fieldsOf w).y (fieldsOf w).nibble = w := by
  apply BitVec.eq_of_toNat_eq
  rw [encXYN_toNat, opOf_toNat, fieldsOf_x_val, fieldsOf_y_val, fieldsOf_nibble_toNat]
  omega

/-! ## When the bits a mask of the table keeps are a given number (R77) -/

theorem and_mask_eq_iff {w : Word} {p : Nat} :
    (w &&& 0xF000).toNat = p ↔ w.toNat / 4096 = p / 4096 ∧ p % 4096 = 0 := by
  have h := congrArg BitVec.toNat (encNNN_and_mask (opOf w) (fieldsOf w).addr)
  simp only [encNNN_fieldsOf, encNNN_toNat, opOf_toNat, BitVec.toNat_zero, Nat.add_zero] at h
  rw [show (w &&& 0xF000).toNat = _ from h]
  omega

theorem and_mask_function_eq_iff {w : Word} {p : Nat} :
    (w &&& 0xF00F).toNat = p ↔ w.toNat / 4096 = p / 4096 ∧ w.toNat % 16 = p % 4096 := by
  have h := congrArg BitVec.toNat (encXYN_and_mask_function (opOf w) (fieldsOf w).x (fieldsOf w).y (fieldsOf w).nibble)
  simp only [encXYN_fieldsOf, encXYN_toNat, opOf_toNat, fieldsOf_nibble_toNat, Fin.val_zero, Nat.zero_mul,
    Nat.add_zero] at h
  rw [show (w &&& 0xF00F).toNat = _ from h]
  omega

theorem and_mask_byte_eq_iff {w : Word} {p : Nat} :
    (w &&& 0xF0FF).toNat = p ↔ w.toNat / 4096 = p / 4096 ∧ w.toNat % 256 = p % 4096 := by
  have h := congrArg BitVec.toNat (encX_and_mask (opOf w) (fieldsOf w).x (fieldsOf w).kk)
  simp only [encX_fieldsOf, encX_toNat, opOf_toNat, fieldsOf_kk_toNat, Fin.val_zero, Nat.zero_mul, Nat.add_zero] at h
  rw [show (w &&& 0xF0FF).toNat = _ from h]
  omega

theorem and_mask_whole_eq_iff {w : Word} {p : Nat} :
    (w &&& 0xFFFF).toNat = p ↔ w.toNat / 4096 = p / 4096 ∧ w.toNat % 4096 = p % 4096 := by
  rw [show (w &&& 0xFFFF).toNat = w.toNat from congrArg BitVec.toNat (BitVec.and_allOnes (x := w))]
  omega

/-! ## Encoding a decoded word (R73, R77): what a covered word is, from its fields -/

section
variable {w : Word} {k : Kind} (op : BitVec 4)

theorem opOf_eq_of_covers (h : (⟨k, 0xF000, encNNN op 0⟩ : Row).covers w = true) : opOf w = op := by
  have hmask : w &&& 0xF000 = encNNN op 0 := beq_iff_eq.1 h
  rw [← BitVec.toNat_inj, and_mask_eq_iff, encNNN_toNat] at hmask
  exact BitVec.eq_of_toNat_eq (by rw [opOf_toNat]; omega)

theorem encNNN_of_covers (h : (⟨k, 0xF000, encNNN op 0⟩ : Row).covers w = true) :
    encNNN op (fieldsOf w).addr = w := by
  rw [← opOf_eq_of_covers op h, encNNN_fieldsOf]

theorem encXKK_of_covers (h : (⟨k, 0xF000, encNNN op 0⟩ : Row).covers w = true) :
    encXKK op (fieldsOf w).x (fieldsOf w).kk = w := by
  rw [← opOf_eq_of_covers op h, encXKK_fieldsOf]

theorem encXYN_of_covers (h : (⟨k, 0xF000, encNNN op 0⟩ : Row).covers w = true) :
    encXYN op (fieldsOf w).x (fieldsOf w).y (fieldsOf w).nibble = w := by
  rw [← opOf_eq_of_covers op h, encXYN_fieldsOf]

theorem fields_eq_of_covers_function (n : Nibble) (h : (⟨k, 0xF00F, encXYN op 0 0 n⟩ : Row).covers w = true) :
    opOf w = op ∧ (fieldsOf w).nibble = n := by
  have hmask : w &&& 0xF00F = encXYN op 0 0 n := beq_iff_eq.1 h
  rw [← BitVec.toNat_inj, and_mask_function_eq_iff, encXYN_toNat] at hmask
  have hn := n.isLt
  exact ⟨BitVec.eq_of_toNat_eq (by rw [opOf_toNat]; omega),
    BitVec.eq_of_toNat_eq (by rw [fieldsOf_nibble_toNat]; omega)⟩

theorem fields_eq_of_covers_byte (fn : Byte) (h : (⟨k, 0xF0FF, encX op 0 fn⟩ : Row).covers w = true) :
    opOf w = op ∧ (fieldsOf w).kk = fn := by
  have hmask : w &&& 0xF0FF = encX op 0 fn := beq_iff_eq.1 h
  rw [← BitVec.toNat_inj, and_mask_byte_eq_iff, encX_toNat] at hmask
  have hfn := fn.isLt
  exact ⟨BitVec.eq_of_toNat_eq (by rw [opOf_toNat]; omega),
    BitVec.eq_of_toNat_eq (by rw [fieldsOf_kk_toNat]; omega)⟩

theorem encXYN_of_covers_function (n : Nibble) (h : (⟨k, 0xF00F, encXYN op 0 0 n⟩ : Row).covers w = true) :
    encXYN op (fieldsOf w).x (fieldsOf w).y n = w := by
  obtain ⟨rfl, rfl⟩ := fields_eq_of_covers_function op n h
  exact encXYN_fieldsOf w

theorem encX_of_covers (fn : Byte) (h : (⟨k, 0xF0FF, encX op 0 fn⟩ : Row).covers w = true) :
    encX op (fieldsOf w).x fn = w := by
  obtain ⟨rfl, rfl⟩ := fields_eq_of_covers_byte op fn h
  exact encX_fieldsOf w

end

/-- What holds of every entry of the table, entry by entry in the table's order. -/
theorem forall_mem_table_iff (p : Row → Prop) : (∀ r ∈ table, p r) ↔
    (∀ r ∈ rows0, p r) ∧ (∀ r ∈ rows1, p r) ∧ ∀ r ∈ rows2, p r := by
  simp only [table, List.forall_mem_append, and_assoc]

/-- The instruction an entry builds from a word it covers encodes as the word, by the entry's format. -/
theorem encode_build_of_covers {w : Word} :
    ∀ r ∈ table, r.covers w = true → encode (r.kind.build (fieldsOf w)) = w := by
  have whole {p : Word} (k : Kind) (hp : ⟨k, 0xFFFF, p⟩ ∈ table)
      (h : (⟨k, 0xFFFF, p⟩ : Row).covers w = true) : p = w :=
    (Row.eq_pattern_of_covers hp rfl hp h).symm
  rw [forall_mem_table_iff]
  simp only [rows0, rows1, rows2, List.forall_mem_cons, List.not_mem_nil, false_implies, implies_true, and_true]
  refine ⟨?_, ?_, ?_⟩
  · exact ⟨whole .cls (by decide), whole .ret (by decide), encNNN_of_covers 0x0, encNNN_of_covers 0x1,
      encNNN_of_covers 0x2, encXKK_of_covers 0x3, encXKK_of_covers 0x4, encXYN_of_covers_function 0x5 0x0,
      encXKK_of_covers 0x6⟩
  · exact ⟨encXKK_of_covers 0x7, encXYN_of_covers_function 0x8 0x0, encXYN_of_covers_function 0x8 0x1,
      encXYN_of_covers_function 0x8 0x2, encXYN_of_covers_function 0x8 0x3, encXYN_of_covers_function 0x8 0x4,
      encXYN_of_covers_function 0x8 0x5, encXYN_of_covers_function 0x8 0x6, encXYN_of_covers_function 0x8 0x7,
      encXYN_of_covers_function 0x8 0xE, encXYN_of_covers_function 0x9 0x0⟩
  · exact ⟨encNNN_of_covers 0xA, encNNN_of_covers 0xB, encXKK_of_covers 0xC, encXYN_of_covers 0xD,
      encX_of_covers 0xE 0x9E, encX_of_covers 0xE 0xA1, encX_of_covers 0xF 0x07, encX_of_covers 0xF 0x0A,
      encX_of_covers 0xF 0x15, encX_of_covers 0xF 0x18, encX_of_covers 0xF 0x1E, encX_of_covers 0xF 0x29,
      encX_of_covers 0xF 0x33, encX_of_covers 0xF 0x55, encX_of_covers 0xF 0x65⟩

theorem encode_of_decodeWord {w : Word} {i : Instr} (h : decodeWord w = some i) : encode i = w := by
  rw [decodeWord_eq, Option.map_eq_some_iff] at h
  obtain ⟨r, hfind, rfl⟩ := h
  exact encode_build_of_covers r (List.mem_of_find?_eq_some hfind)
    (List.find?_some (p := fun q : Row => q.covers w) hfind)

/-- The words of the two ill-formed `SYS` decode to `CLS` and `RET` (R78). -/
theorem wellFormed_of_decodeWord {w : Word} {i : Instr} (h : decodeWord w = some i) : i.wellFormed = true := by
  obtain rfl := encode_of_decodeWord h
  cases i
  case sys addr =>
    simp only [Instr.wellFormed, Bool.and_eq_true, decide_eq_true_eq]
    constructor <;> rintro rfl <;> exact absurd h (by decide)
  all_goals rfl

/-- Settles O2: the entry that takes the word builds an instruction of its own format from the word's fields. -/
theorem encodeInvertsDecode : Obligations.EncodeInvertsDecode := fun _ _ h =>
  ⟨wellFormed_of_decodeWord h, encode_of_decodeWord h⟩

/-- `SYS`'s opcode digit is 0, so its word is its address. -/
theorem toNat_encode_sys (addr : Addr12) : (encode (.sys addr)).toNat = addr.toNat :=
  (encNNN_toNat 0x0#4 addr).trans (Nat.zero_add _)

/-- Settles O5: an unknown word's opcode digit is one of five, each with its own function digits or bytes. -/
theorem unknownWordsAreTheFiveClasses : Obligations.UnknownWordsAreTheFiveClasses := fun w => by
  have hop : w.toNat / 4096 < 16 := by have := w.isLt; omega
  have hn : w.toNat % 16 < 16 := Nat.mod_lt _ (by decide)
  rw [decodeWord_eq_none_iff, forall_mem_table_iff]
  simp only [rows0, rows1, rows2, List.forall_mem_cons, List.not_mem_nil, false_implies, implies_true, and_true,
    Row.covers, beq_eq_false_iff_ne, ne_eq, ← BitVec.toNat_inj, and_mask_eq_iff, and_mask_function_eq_iff,
    and_mask_byte_eq_iff, and_mask_whole_eq_iff, BitVec.reduceToNat]
  generalize w.toNat / 4096 = op at *
  interval_cases op
  all_goals simp
  -- left is digit 8, where the table lists some function digits and the class the others
  omega

/-- Settles O6, word by word. -/
theorem sampleWordsDecode : Obligations.SampleWordsDecode := by
  unfold Obligations.SampleWordsDecode
  decide

end Sys2Proof

/-! The invariant of a run: what an instruction, a cycle, a host operation and a reset keep of it. -/

namespace Sys2Proof.Machine

/-! ## Changes that keep the invariant -/

/-- The invariant is about memory, `pc`, the stack and `halt` alone. -/
theorem Inv.of_eq {s t : State} (h : Inv s) (hmem : t.mem = s.mem) (hpc : t.pc = s.pc) (hstack : t.stack = s.stack)
    (hsp : t.sp = s.sp) (hhalt : t.halt = s.halt) : Inv t := by
  obtain ⟨hwf, hbound, hentries, hsound⟩ := h
  exact ⟨by rwa [hmem], by rwa [hpc], by rwa [hstack, hsp], by rwa [hhalt, hpc]⟩

theorem Inv.withHost {s : State} (h : Inv s) (ops : List HostOp) (sched : Schedule) :
    Inv { s with host := ops, schedule := sched } :=
  h.of_eq rfl rfl rfl rfl rfl

/-- Taking a fault keeps the invariant where the record says what can have happened. -/
theorem Inv.faulted {s : State} {f : CoreFault} (h : Inv s) (hsound : HaltRecord.Sound ⟨f, s.pc⟩ s.pc) :
    Inv (s.faulted f) := by
  obtain ⟨hwf, hbound, hentries, -⟩ := h
  refine ⟨hwf, hbound, hentries, fun r hr => ?_⟩
  cases hr
  exact hsound

/-- The invariant of a running core but for its `pc`, which the end of the cycle sets. -/
def InvWithin (s : State) : Prop :=
  s.mem.wf = true ∧ (∀ j : Fin 16, j.val < s.sp.val → s.stack[j.val].toNat ≤ 0xFFE) ∧ s.halt = none

theorem InvWithin.writeList {s : State} (h : InvWithin s) {base : Nat} {bytes : List Byte}
    (hb : base + bytes.length ≤ Config.memSize) : InvWithin { s with mem := s.mem.writeList base bytes } := by
  obtain ⟨hwf, hrest⟩ := h
  exact ⟨Memory.wf_writeList _ _ _ hb hwf, hrest⟩

/-- A push of a fetchable address. -/
theorem InvWithin.of_push {s t : State} {w : Word} (h : InvWithin s) (hw : w.toNat ≤ 0xFFE)
    (hpush : s.push w = some t) : InvWithin t := by
  obtain ⟨hroom, rfl⟩ := (State.push_eq_some_iff s t w).1 hpush
  obtain ⟨hwf, hentries, hrun⟩ := h
  refine ⟨hwf, fun j hj => ?_, hrun⟩
  have hj : j.val < s.sp.val + 1 := hj
  show (s.stack.set s.sp.val w)[j.val].toNat ≤ 0xFFE
  rw [Vector.getElem_set]
  split
  · exact hw
  · exact hentries j (by omega)

/-- A pop answers a fetchable address. -/
theorem InvWithin.of_pop {s t : State} {w : Word} (h : InvWithin s) (hpop : s.pop = some (w, t)) :
    InvWithin t ∧ w.toNat ≤ 0xFFE := by
  obtain ⟨hsome, rfl, rfl⟩ := (State.pop_eq_some_iff s t w).1 hpop
  obtain ⟨hwf, hentries, hrun⟩ := h
  have htop : s.sp.val - 1 < 16 := by have := s.sp.isLt; omega
  exact ⟨⟨hwf, fun j hj => hentries j (Nat.lt_of_lt_of_le hj (Nat.sub_le _ _)), hrun⟩,
    hentries ⟨s.sp.val - 1, htop⟩ (Nat.sub_lt hsome Nat.one_pos)⟩

/-! ## One lemma per end of a cycle -/

/-- Whatever next state the result is, it meets the invariant. -/
def AnswersInv (r : Result) : Prop := ∀ t, r = .next t → Inv t

theorem AnswersInv.of_next {t : State} (h : Inv t) : AnswersInv (.next t) := by
  rintro _ ⟨⟩
  exact h

/-- A completed cycle of a running core: the new `pc` is all that is left to bound. -/
theorem AnswersInv.of_completed {u : State} {pcH : Word} {c : Bool} (h : InvWithin u)
    (hpc : (pcH + 2#16).toNat ≤ 0x10FE) : AnswersInv (.next (u.completed pcH c)) := by
  obtain ⟨hwf, hentries, hrun⟩ := h
  exact .of_next ⟨hwf, hpc, hentries, fun r hr => nomatch hrun.symm.trans hr⟩

/-- The address check lets the rest run inside memory only, and its own fault is sound. -/
theorem AnswersInv.of_checked {s : State} {rest : Result} {base count : Nat} (hs : Inv s)
    (h : count = 0 ∨ base + count ≤ Config.memSize → AnswersInv rest) (kind : AccessKind) :
    AnswersInv (checked kind base count s rest) := by
  rw [checked_eq]
  split
  · next hin => exact h hin
  · exact .of_next (hs.faulted ⟨rfl, Nat.le_max_right _ _⟩)

theorem toNat_add_two_le {p : Word} {n : Nat} (h : p.toNat ≤ n) : (p + 2#16).toNat ≤ n + 2 := by
  rw [BitVec.toNat_add]
  exact (Nat.mod_le _ _).trans (Nat.add_le_add_right h 2)

/-- The targets of a skip, from a fetchable `pc`. -/
theorem toNat_skip_le {p : Word} (h : p.toNat ≤ 0xFFE) (taken : Bool) :
    ((if taken then p + 2#16 else p) + 2#16).toNat ≤ 0x10FE := by
  have hle : (if taken then p + 2#16 else p).toNat ≤ 0x1000 := by
    cases taken
    · exact h.trans (by decide)
    · exact toNat_add_two_le h
  exact (toNat_add_two_le hle).trans (by decide)

theorem toNat_absolute_le (addr : Addr12) : (absolute addr).toNat ≤ 0xFFF := by
  rw [toNat_absolute]
  exact Nat.le_of_lt_succ addr.isLt

theorem toNat_registerPlusAbsolute (addr : Addr12) (s : State) :
    (registerPlusAbsolute addr s).toNat = (s.getV 0).toNat + addr.toNat := by
  have hv := (s.getV 0).isLt
  have haddr := addr.isLt
  rw [registerPlusAbsolute, BitVec.toNat_add, toNat_absolute, BitVec.toNat_setWidth_of_le (by decide)]
  exact Nat.mod_eq_of_lt (by omega)

/-! ## Instructions, cycles and host operations -/

/-- An instruction that was fetched keeps the invariant. -/
theorem answersInv_exec {s : State} (h : Inv s) (hrun : s.halt = none) (hpc : s.pc.toNat ≤ 0xFFE) (i : Instr) :
    AnswersInv (exec i s) := by
  have within : InvWithin s := ⟨h.memory, h.stackBound, hrun⟩
  have plain : (s.pc + 2#16).toNat ≤ 0x10FE := (toNat_add_two_le hpc).trans (by decide)
  have target {w : Word} (hw : w.toNat ≤ 0x10FE) : (w - 2#16 + 2#16).toNat ≤ 0x10FE := by rwa [sub_two_add_two]
  cases i
  case sys addr =>
    refine .of_next (h.faulted ⟨rfl, ?_⟩)
    exact (toNat_encode_sys addr).trans_lt addr.isLt
  case ret =>
    simp only [exec, execRet]
    split
    · exact .of_next (h.faulted ⟨rfl, rfl⟩)
    · next hpop =>
      obtain ⟨hwithin, hw⟩ := within.of_pop hpop
      exact .of_completed hwithin ((toNat_add_two_le hw).trans (by decide))
  case call addr =>
    simp only [exec, execCall]
    split
    · exact .of_next (h.faulted ⟨rfl, rfl⟩)
    · next hpush =>
      exact .of_completed (within.of_push hpc hpush) (target ((toNat_absolute_le addr).trans (by decide)))
  case jp addr => exact .of_completed within (target ((toNat_absolute_le addr).trans (by decide)))
  case jpV0 addr =>
    refine .of_completed within (target ?_)
    have hv := (s.getV 0).isLt
    have haddr := addr.isLt
    rw [toNat_registerPlusAbsolute]
    omega
  case seImm | sneImm | seReg | sneReg | skp | sknp => exact .of_completed within (toNat_skip_le hpc _)
  case ldVxK x =>
    simp only [exec, execLdVxK]
    split
    · exact .of_next (h.of_eq rfl rfl rfl rfl rfl)
    · exact .of_completed within plain
  case drw x y n =>
    refine .of_checked h (fun _ => ?_) _
    exact .of_completed within plain
  case ldB x =>
    refine .of_checked h (fun hin => ?_) _
    exact .of_completed (within.writeList (hin.resolve_left (by decide))) plain
  case storeRegs x =>
    refine .of_checked h (fun hin => ?_) _
    refine .of_completed (within.writeList ?_) plain
    rw [registersUpTo_length]
    exact hin.resolve_left (Nat.succ_ne_zero _)
  case loadRegs x =>
    refine .of_checked h (fun _ => ?_) _
    exact .of_completed within plain
  all_goals exact .of_completed within plain

/-- A fetch that answers a word is of two bytes in memory (R55). -/
theorem pc_le_of_fetch_eq_ok {s : State} {w : Word} (h : s.fetch = .ok w) : s.pc.toNat ≤ 0xFFE := by
  rw [State.fetch_eq] at h
  split at h
  · next hin => exact Nat.le_of_add_le_add_right hin
  · cases h

/-- A fetch that faults names the lowest address outside (R55). -/
theorem eq_outOfBounds_of_fetch_eq_error {s : State} {f : CoreFault} (h : s.fetch = .error f) :
    f = .memoryOutOfBounds .fetch (max s.pc.toNat Config.memSize) := by
  rw [State.fetch_eq] at h
  split at h <;> cases h
  rfl

theorem answersInv_cycle {s : State} (h : Inv s) (hrun : s.halt = none) : AnswersInv (cycle s) := by
  rcases cycle_cases s with ⟨f, hf, hc⟩ | ⟨w, i, hw, -, hc⟩ | ⟨w, hw, -, hc⟩ <;> rw [hc]
  · obtain rfl := eq_outOfBounds_of_fetch_eq_error hf
    exact .of_next (h.faulted ⟨rfl, Nat.le_max_right _ _⟩)
  · exact answersInv_exec h hrun (pc_le_of_fetch_eq_ok hw) i
  · exact .of_completed ⟨h.memory, h.stackBound, hrun⟩ ((toNat_add_two_le (pc_le_of_fetch_eq_ok hw)).trans (by decide))

theorem inv_reset : Inv State.reset :=
  ⟨rfl, by decide, fun _ hj => absurd hj (Nat.not_lt_zero _), fun _ hr => nomatch hr⟩

/-- An image that fits keeps memory canonical. -/
theorem inv_resetWith {image : List Byte} (hfits : image.length ≤ maxImage) : Inv (State.resetWith image) := by
  obtain ⟨hwf, hbound, hentries, hsound⟩ := inv_reset
  exact ⟨Memory.wf_writeList [] _ image (Nat.add_le_of_le_sub' (by decide) hfits) hwf, hbound, hentries, hsound⟩

theorem answersInv_hostStep {s : State} (h : Inv s) (op : HostOp) : AnswersInv (hostStep op s) := by
  cases op
  case reset image =>
    simp only [hostStep, hostReset]
    split
    · next hfits => exact .of_next ((inv_resetWith hfits).of_eq rfl rfl rfl rfl rfl)
    · exact nofun
  case cycle r =>
    simp only [hostStep]
    split
    · exact .of_next (h.of_eq rfl rfl rfl rfl rfl)
    · next hrun =>
      intro t ht
      obtain ⟨u, hu, rfl⟩ := (mapNext_eq_next_iff _ _ _).1 ht
      exact (answersInv_cycle (h.withHost (.cycle r :: s.host) s.schedule) hrun u hu).withHost _ _
  all_goals exact .of_next (h.of_eq rfl rfl rfl rfl rfl)

theorem answersInv_step {s : State} (h : Inv s) : AnswersInv (step s) := by
  match hhost : s.host, hsched : s.schedule with
  | op :: rest, _ =>
    rw [step_of_pending s hhost]
    exact answersInv_hostStep (h.withHost _ _) op
  | [], .free n =>
    rw [step_of_free s hhost hsched, step_of_pending _ rfl]
    exact answersInv_hostStep (h.withHost _ _) _
  | [], .cyclesOnly =>
    rw [step_of_cyclesNext s ⟨hhost, hsched⟩]
    split
    · exact nofun
    · next hrun => exact answersInv_cycle h hrun

/-- Settles O17, by the operation the step runs, down to the instruction. -/
theorem stepKeepsTheInvariant : Obligations.StepKeepsTheInvariant := fun _ t h => answersInv_step h t

/-- Settles O18: nothing is written, the stack is empty, nothing has halted. -/
theorem resetMeetsTheInvariant : Obligations.ResetMeetsTheInvariant := inv_reset

end Sys2Proof.Machine

/-! The ends of an instruction: the faults it can raise, with what they leave, and the `changed` output. -/

namespace Sys2Proof.Machine

/-! ## The address check from `I` on (R53, R59, R186) -/

theorem checked_of_inside {s : State} {count : Nat} (h : ∀ k, k < count → indexed s k < Config.memSize)
    (kind : AccessKind) (rest : Result) : checked kind (indexed s 0) count s rest = rest := by
  simp only [checked, (firstOutside_eq_none_iff (indexed s 0) count).2 h]

/-- Of addresses in a row, all are inside if the last is. -/
theorem indexed_lt_of_le {s : State} {k n : Nat} (h : indexed s n < Config.memSize) (hk : k ≤ n) :
    indexed s k < Config.memSize :=
  (Nat.add_le_add_left hk _).trans_lt h

theorem checked_of_lowestOutside {s : State} {k count : Nat} (h : LowestOutside s k) (hk : k < count)
    (kind : AccessKind) (rest : Result) :
    checked kind (indexed s 0) count s rest = .next (s.faulted (.memoryOutOfBounds kind (indexed s k))) := by
  obtain ⟨hout, hin⟩ := h
  have hmax : max (indexed s 0) Config.memSize = indexed s k := by
    cases k with
    | zero => exact Nat.max_eq_left hout
    | succ n =>
      have hlast := hin n n.lt_succ_self
      simp only [indexed] at hout hlast ⊢
      omega
  have hcount : ¬(count = 0 ∨ indexed s 0 + count ≤ Config.memSize) := by
    simp only [indexed] at hout ⊢
    omega
  rw [checked_eq, if_neg hcount, hmax]

/-- Everything the check can do: run the rest, or raise the fault of the lowest address outside. -/
theorem checked_cases (kind : AccessKind) (count : Nat) (s : State) (rest : Result) :
    checked kind (indexed s 0) count s rest = rest ∨
    ∃ k, k < count ∧ LowestOutside s k ∧
      checked kind (indexed s 0) count s rest = .next (s.faulted (.memoryOutOfBounds kind (indexed s k))) := by
  by_cases h : ∃ k, k < count ∧ Config.memSize ≤ indexed s k
  · have hlow : LowestOutside s (Nat.find h) := by
      obtain ⟨hk, hout⟩ := Nat.find_spec h
      exact ⟨hout, fun j hj => Nat.lt_of_not_le fun hle => Nat.find_min h hj ⟨hj.trans hk, hle⟩⟩
    exact .inr ⟨_, (Nat.find_spec h).1, hlow, checked_of_lowestOutside hlow (Nat.find_spec h).1 kind rest⟩
  · exact .inl (checked_of_inside (fun k hk => Nat.lt_of_not_le fun hle => h ⟨k, hk, hle⟩) kind rest)

/-! ## The three ends of an instruction, with its faults and its `changed` -/

/-- The instructions whose completed cycle signals a changed framebuffer (R39, decision D12). -/
def signalsChanged (i : Instr) : Bool :=
  match i with
  | .cls | .drw _ _ _ => true
  | _ => false

theorem signalsChanged_iff (i : Instr) : signalsChanged i = true ↔ i = .cls ∨ ∃ x y n, i = .drw x y n := by
  cases i <;> simp [signalsChanged]

/-- The rows of R270 an instruction can raise, each with its cause and its info. -/
def RaisesFault (i : Instr) (s : State) (f : CoreFault) : Prop :=
  (f.code = 1 ∧ (∃ a, i = .call a) ∧ s.sp = 16 ∧ f = .stackOverflow s.pc) ∨
  (f.code = 2 ∧ i = .ret ∧ s.sp = 0 ∧ f = .stackUnderflow s.pc) ∨
  (f.code = 4 ∧ ∃ k, ((∃ x y n, i = .drw x y n ∧ k < n.toNat) ∨ (∃ x, i = .loadRegs x ∧ k ≤ x.val)) ∧
    LowestOutside s k ∧ f = .memoryOutOfBounds .read (indexed s k)) ∨
  (f.code = 5 ∧ ∃ k, (((∃ x, i = .ldB x) ∧ k < 3) ∨ (∃ x, i = .storeRegs x ∧ k ≤ x.val)) ∧
    LowestOutside s k ∧ f = .memoryOutOfBounds .write (indexed s k)) ∨
  (f.code = 6 ∧ ∃ addr, i = .sys addr ∧ f = .unhandledInstruction (encode i))

/-- The result completes and reports `changed`, or is a stall, or takes a fault the instruction can raise. -/
def EndsAs (i : Instr) (s : State) (r : Result) : Prop :=
  (∃ (u : State) (pcH : Word), r = .next (u.completed pcH (signalsChanged i))) ∨
  r = .next s.stalled ∨
  ∃ f, RaisesFault i s f ∧ r = .next (s.faulted f)

theorem EndsAs.of_completed {i : Instr} {s : State} (u : State) (pcH : Word) {c : Bool} (hc : signalsChanged i = c) :
    EndsAs i s (.next (u.completed pcH c)) :=
  .inl ⟨u, pcH, by rw [hc]⟩

theorem EndsAs.of_faulted {i : Instr} {s : State} {f : CoreFault} (h : RaisesFault i s f) :
    EndsAs i s (.next (s.faulted f)) :=
  .inr (.inr ⟨f, h, rfl⟩)

/-- The check adds to the rest the fault of the lowest address outside. -/
theorem EndsAs.of_checked {i : Instr} {s : State} {kind : AccessKind} {count : Nat} {rest : Result}
    (hrest : EndsAs i s rest)
    (hraise : ∀ k, k < count → LowestOutside s k → RaisesFault i s (.memoryOutOfBounds kind (indexed s k))) :
    EndsAs i s (checked kind (indexed s 0) count s rest) := by
  obtain h | ⟨k, hk, hlow, h⟩ := checked_cases kind count s rest <;> rw [h]
  · exact hrest
  · exact .of_faulted (hraise k hk hlow)

theorem exec_endsAs (i : Instr) (s : State) : EndsAs i s (exec i s) := by
  cases i
  case sys addr => exact .of_faulted (.inr (.inr (.inr (.inr ⟨rfl, addr, rfl, rfl⟩))))
  case ret =>
    simp only [exec, execRet]
    split
    · next hpop => exact .of_faulted (.inr (.inl ⟨rfl, rfl, (State.pop_eq_none_iff s).1 hpop, rfl⟩))
    · exact .of_completed _ _ rfl
  case call addr =>
    simp only [exec, execCall]
    split
    · next hpush => exact .of_faulted (.inl ⟨rfl, ⟨addr, rfl⟩, (State.push_eq_none_iff s _).1 hpush, rfl⟩)
    · exact .of_completed _ _ rfl
  case ldVxK x =>
    simp only [exec, execLdVxK]
    split
    · exact .inr (.inl rfl)
    · exact .of_completed _ _ rfl
  case drw x y n =>
    refine .of_checked (.of_completed _ _ rfl) fun k hk hlow => ?_
    exact .inr (.inr (.inl ⟨rfl, k, .inl ⟨x, y, n, rfl, hk⟩, hlow, rfl⟩))
  case loadRegs x =>
    refine .of_checked (.of_completed _ _ rfl) fun k hk hlow => ?_
    exact .inr (.inr (.inl ⟨rfl, k, .inr ⟨x, rfl, Nat.le_of_lt_succ hk⟩, hlow, rfl⟩))
  case ldB x =>
    refine .of_checked (.of_completed _ _ rfl) fun k hk hlow => ?_
    exact .inr (.inr (.inr (.inl ⟨rfl, k, .inl ⟨⟨x, rfl⟩, hk⟩, hlow, rfl⟩)))
  case storeRegs x =>
    refine .of_checked (.of_completed _ _ rfl) fun k hk hlow => ?_
    exact .inr (.inr (.inr (.inl ⟨rfl, k, .inr ⟨x, rfl, Nat.le_of_lt_succ hk⟩, hlow, rfl⟩)))
  all_goals exact .of_completed _ _ rfl

/-- The reply tells a fault from the other two ends. -/
theorem eq_faulted_of_reply {i : Instr} {s t : State} {f : CoreFault} (h : exec i s = .next t)
    (hr : t.reply = .faulted f) : RaisesFault i s f ∧ t = s.faulted f := by
  rcases exec_endsAs i s with ⟨u, pcH, he⟩ | he | ⟨g, hg, he⟩ <;> cases h.symm.trans he <;> cases hr
  exact ⟨hg, rfl⟩

theorem SameItems.refl (s : State) : SameItems s s :=
  ⟨rfl, rfl, rfl, rfl, rfl, rfl, rfl, rfl, rfl, rfl, rfl⟩

/-- Settles O12: a fault is taken by `State.faulted`, which writes `halt` and the reply. -/
theorem faultsArePrecise : Obligations.FaultsArePrecise := by
  intro i s t f h hr
  obtain ⟨-, rfl⟩ := eq_faulted_of_reply h hr
  exact ⟨rfl, SameItems.refl s, rfl, rfl⟩

/-- Settles O13, instruction by instruction in `exec_endsAs`. -/
theorem faultsComeFromTheirInstructions : Obligations.FaultsComeFromTheirInstructions :=
  fun _ _ _ _ h hr => (eq_faulted_of_reply h hr).1

@[simp] theorem State.completed_changed (s : State) (pcH : Word) (c : Bool) : (s.completed pcH c).changed = c := by
  cases c <;> rfl

/-- Settles O14, by the three ends of an instruction. -/
theorem changedOnlyAfterClsAndDrw : Obligations.ChangedOnlyAfterClsAndDrw := by
  intro i s t h
  rw [← signalsChanged_iff]
  rcases exec_endsAs i s with ⟨u, pcH, he⟩ | he | ⟨f, -, he⟩
  · cases h.symm.trans he
    rw [State.completed_changed]
    exact ⟨fun hc => ⟨hc, nofun⟩, And.left⟩
  · obtain ⟨⟨x, rfl⟩, -⟩ := (exec_eq_stalled_iff i s).1 he
    cases h.symm.trans he
    exact ⟨nofun, nofun⟩
  · cases h.symm.trans he
    exact ⟨nofun, fun ⟨_, hno⟩ => absurd rfl (hno f)⟩

end Sys2Proof.Machine

/-! Control transfer, the flags, the random byte, `ADD I`, the key tests and `CLS`: one lemma per way to complete. -/

namespace Sys2Proof.Machine

/-! ## Control transfer (R86, R100 to R103, R108) -/

theorem traps_of_faulted {i : Instr} {s : State} {f : CoreFault} (he : exec i s = .next (s.faulted f)) : Traps i s f :=
  ⟨_, he, rfl, rfl, SameItems.refl s, rfl, rfl, rfl⟩

/-- A transfer reaches its target, whatever it is (decision D5). -/
theorem completes_of_branch {i : Instr} {s u : State} {f : Footprint} {post : State → Prop} {target : Word}
    (he : exec i s = branch target u) (hkeeps : KeepsBut f s u) (hpost : post (u.completed (target - 2#16) false)) :
    Completes i s target false f post :=
  ⟨_, he, sub_two_add_two target, rfl, hkeeps.completed _ _, hpost⟩

/-- `SYS`'s entry takes what `CLS` and `RET` leave of it (R78). -/
theorem decodeWord_eq_sys_iff (w : Word) : decodeWord w = some (.sys (fieldsOf w).addr) ↔
    w &&& 0xF000#16 = 0x0000#16 ∧ w ≠ 0x00E0#16 ∧ w ≠ 0x00EE#16 := by
  have hrow : (⟨.sys, 0xF000, 0x0000⟩ : Row) ∈ table := by decide
  constructor
  · intro h
    refine ⟨beq_iff_eq.1 (covers_of_decodeWord hrow h), ?_, ?_⟩ <;> rintro rfl <;> exact absurd h (by decide)
  · rintro ⟨hmask, hcls, hret⟩
    exact decodeWord_of_covers_of_not_sys hrow (beq_iff_eq.2 hmask) fun ⟨_, hw⟩ => hw.elim hcls hret

/-- Settles O19: the words `CLS` and `RET` leave to `SYS`, and the fault that every `SYS` raises. -/
theorem sysHaltsTheCore : Obligations.SysHaltsTheCore :=
  ⟨decodeWord_eq_sys_iff, fun addr _ => ⟨encode (.sys addr), toNat_encode_sys addr, traps_of_faulted rfl⟩⟩

theorem pop_of_pos {s : State} {d : Nat} (hd : d < 16) (hsp : s.sp.val = d + 1) :
    s.pop = some (s.stack[d], { s with sp := ⟨d, by omega⟩ }) :=
  (State.pop_eq_some_iff s _ _).2 ⟨by omega, by simp [hsp], by simp [hsp]⟩

theorem exec_ret_of_pos {s : State} {d : Nat} (hd : d < 16) (hsp : s.sp.val = d + 1) :
    exec .ret s = .next ({ s with sp := ⟨d, by omega⟩ }.completed s.stack[d] false) := by
  simp only [exec, execRet, pop_of_pos hd hsp]

theorem exec_call_of_lt {s : State} (hsp : s.sp.val < 16) (addr : Addr12) :
    exec (.call addr) s =
      branch (absolute addr) { s with stack := s.stack.set s.sp.val s.pc, sp := ⟨s.sp.val + 1, by omega⟩ } := by
  simp only [exec, execCall, (State.push_eq_some_iff s _ s.pc).2 ⟨hsp, rfl⟩]

/-- Settles O20: the table entry, the pop of the entry below `sp`, and the fault with none. -/
theorem retGoesTwoPastThePoppedEntry : Obligations.RetGoesTwoPastThePoppedEntry := by
  refine ⟨encodedBy_of_row (r := ⟨.ret, 0xFFFF, 0x00EE⟩) (by decide) (by decide), fun s d hd hsp => ?_, fun s hsp => ?_⟩
  · exact ⟨_, exec_ret_of_pos hd hsp, rfl, rfl, (KeepsBut.of_pop (pop_of_pos hd hsp) rfl).completed _ _, rfl⟩
  · apply traps_of_faulted
    simp only [exec, execRet, (State.pop_eq_none_iff s).2 hsp, raise_eq]

/-- Settles O21: the table entry, and the transfer to the zero-extended address. -/
theorem jpGoesToItsTarget : Obligations.JpGoesToItsTarget :=
  ⟨encodedBy_of_row (r := ⟨.jp, 0xF000, 0x1000⟩) (by decide) (by decide),
    fun addr s => ⟨absolute addr, toNat_absolute addr, completes_of_branch rfl (KeepsBut.refl {} s) trivial⟩⟩

/-- Settles O22: the table entry, the push of the `CALL`'s own address, and the fault with the stack full. -/
theorem callPushesItsOwnAddress : Obligations.CallPushesItsOwnAddress := by
  refine ⟨encodedBy_of_row (r := ⟨.call, 0xF000, 0x2000⟩) (by decide) (by decide), fun addr s hsp => ?_,
    fun addr s hsp => ?_⟩
  · have hpush := (State.push_eq_some_iff s _ s.pc).2 ⟨hsp, rfl⟩
    refine ⟨absolute addr, toNat_absolute addr, completes_of_branch (exec_call_of_lt hsp addr)
      (.of_push hpush (List.mem_singleton_self _) rfl) ⟨?_, rfl⟩⟩
    exact Vector.getElem_set_self hsp
  · apply traps_of_faulted
    simp only [exec, execCall, (State.push_eq_none_iff s s.pc).2 hsp, raise_eq]

/-- Settles O25: the table entry, and the transfer to the sum, which 16 bits hold. -/
theorem jpV0AddsWithoutReduction : Obligations.JpV0AddsWithoutReduction :=
  ⟨encodedBy_of_row (r := ⟨.jpV0, 0xF000, 0xB000⟩) (by decide) (by decide),
    fun addr s => ⟨registerPlusAbsolute addr s, toNat_registerPlusAbsolute addr s,
      completes_of_branch rfl (KeepsBut.refl {} s) trivial⟩⟩

/-- Settles O26: the `RET` pops the entry the `CALL` pushed, above those in use before. -/
theorem callThenRetReturns : Obligations.CallThenRetReturns := by
  intro addr s t hsp h
  cases (exec_call_of_lt hsp addr).symm.trans h
  refine ⟨_, exec_ret_of_pos hsp rfl, ?_, rfl, fun j hj => ?_⟩
  · simp
  · exact Vector.getElem_set_ne hsp j.isLt (Nat.ne_of_gt hj)

/-! ## The flag written last (R141, R148 to R152) -/

/-- An instruction that writes a result to `V[x]` and then a flag to `VF`: what holds of the flag holds of `VF` after
it, what holds of the result holds of `V[x]` unless that is `VF`. -/
theorem completes_of_writeWithFlag {i : Instr} {s : State} {x : Reg} {result : Byte} {flag : Bool} {p q : Byte → Prop}
    (he : exec i s = advance (writeWithFlag vfOrder x result flag s)) (hp : p result) (hq : q (flagByte flag)) :
    Completes i s (s.pc + 2#16) false { regs := [x, vf] } (fun t => (x ≠ vf → p (t.getV x)) ∧ q (t.getV vf)) := by
  have hx : x ∈ [x, vf] := List.mem_cons_self
  have hvf : vf ∈ [x, vf] := List.mem_cons_of_mem x (List.mem_singleton_self vf)
  refine completes_of_advance he rfl (((KeepsBut.refl _ s).setV hx result).setV hvf (flagByte flag)) ⟨fun hne => ?_, ?_⟩
  · rwa [vfOrder_eq, State.getV_completed, getV_writeWithFlag, if_neg hne, if_pos rfl]
  · rwa [vfOrder_eq, State.getV_completed, getV_writeWithFlag, if_pos rfl]

theorem flagByte_decide (p : Prop) [Decidable p] : flagByte (decide p) = if p then 1#8 else 0#8 := by
  by_cases h : p <;> simp [flagByte, h]

theorem toNat_flagByte (b : Bool) : (flagByte b).toNat = b.toNat := by cases b <;> rfl

theorem toNat_byte_sub (a b : Byte) : (a - b).toNat = (a.toNat + 256 - b.toNat) % 256 := by
  rw [BitVec.toNat_sub]
  have := b.isLt
  congr 1
  omega

/-- Settles O31: the table entry, the wrapped sum and the carry of the true one. -/
theorem addRegSetsCarry : Obligations.AddRegSetsCarry :=
  ⟨encodedBy_of_row (r := ⟨.addReg, 0xF00F, 0x8004⟩) (by decide) (by decide), fun x y s =>
    completes_of_writeWithFlag (p := fun b => b.toNat = ((s.getV x).toNat + (s.getV y).toNat) % 256)
      (q := fun b => b = if 255 < (s.getV x).toNat + (s.getV y).toNat then 1#8 else 0#8)
      rfl (BitVec.toNat_add _ _) (flagByte_decide _)⟩

/-- Settles O32: the two table entries, the wrapped differences and their not-borrows. -/
theorem subtractionsSetNotBorrow : Obligations.SubtractionsSetNotBorrow :=
  ⟨encodedBy_of_row (r := ⟨.sub, 0xF00F, 0x8005⟩) (by decide) (by decide),
    encodedBy_of_row (r := ⟨.subn, 0xF00F, 0x8007⟩) (by decide) (by decide), fun x y s =>
    ⟨completes_of_writeWithFlag (p := fun b => b.toNat = ((s.getV x).toNat + 256 - (s.getV y).toNat) % 256)
        (q := fun b => b = if (s.getV y).toNat ≤ (s.getV x).toNat then 1#8 else 0#8)
        rfl (toNat_byte_sub _ _) (flagByte_decide _),
      completes_of_writeWithFlag (p := fun b => b.toNat = ((s.getV y).toNat + 256 - (s.getV x).toNat) % 256)
        (q := fun b => b = if (s.getV x).toNat ≤ (s.getV y).toNat then 1#8 else 0#8)
        rfl (toNat_byte_sub _ _) (flagByte_decide _)⟩⟩

theorem toNat_byte_shiftRight (a : Byte) : (a >>> 1).toNat = a.toNat / 2 := by
  rw [BitVec.toNat_ushiftRight, Nat.shiftRight_eq_div_pow, pow_one]

theorem toNat_byte_shiftLeft (a : Byte) : (a <<< 1).toNat = a.toNat * 2 % 256 := by
  rw [BitVec.toNat_shiftLeft, Nat.shiftLeft_eq, pow_one]

theorem toNat_lowBitOf (a : Byte) : (lowBitOf a).toNat = a.toNat % 2 := by
  rw [lowBitOf, BitVec.getLsbD, Nat.toNat_testBit, pow_zero, Nat.div_one]

theorem toNat_highBitOf (a : Byte) : (highBitOf a).toNat = a.toNat / 128 := by
  rw [highBitOf, BitVec.getLsbD, Nat.toNat_testBit]
  have := a.isLt
  omega

/-- Settles O33: the two table entries, half and twice the value, and the bit each shift drops. -/
theorem shiftsSetTheBitShiftedOut : Obligations.ShiftsSetTheBitShiftedOut :=
  ⟨encodedBy_of_row (r := ⟨.shr, 0xF00F, 0x8006⟩) (by decide) (by decide),
    encodedBy_of_row (r := ⟨.shl, 0xF00F, 0x800E⟩) (by decide) (by decide), fun x _ s =>
    ⟨completes_of_writeWithFlag (p := fun b => b.toNat = (s.getV x).toNat / 2)
        (q := fun b => b.toNat = (s.getV x).toNat % 2)
        rfl (toNat_byte_shiftRight _) ((toNat_flagByte _).trans (toNat_lowBitOf _)),
      completes_of_writeWithFlag (p := fun b => b.toNat = (s.getV x).toNat * 2 % 256)
        (q := fun b => b.toNat = (s.getV x).toNat / 128)
        rfl (toNat_byte_shiftLeft _) ((toNat_flagByte _).trans (toNat_highBitOf _))⟩⟩

/-! ## The random byte (R153, R286) -/

/-- Settles O34: the table entry, and the write of the masked byte with the draw counted. -/
theorem rndMasksTheRandomByte : Obligations.RndMasksTheRandomByte := by
  refine ⟨encodedBy_of_row (r := ⟨.rnd, 0xF000, 0xC000⟩) (by decide) (by decide), fun x kk s => ?_⟩
  have hkeeps := ((KeepsBut.refl { regs := [x], draws := true } s).setV (List.mem_singleton_self x)
    (s.randomByte &&& kk)).setDraws rfl (s.draws + 1)
  have hx : (s.setV x (s.randomByte &&& kk)).getV x = s.randomByte &&& kk := State.getV_setV_same _ _ _
  refine completes_of_advance rfl rfl hkeeps ⟨fun r rest hhost => ?_, fun hhost => ?_, fun k hk => ?_, rfl⟩
  · refine hx.trans ?_
    simp only [State.randomByte, hhost]
  · refine hx.trans ?_
    simp only [State.randomByte, hhost]
  · refine (congrArg (BitVec.getLsbD · k) hx).trans ?_
    simp only [BitVec.getLsbD_and, hk, Bool.and_false]

/-! ## `ADD I` (R181), the key tests (R240, R241) and `CLS` (R210) -/

/-- Settles O37: the table entry, and the write of the sum, which words take modulo 65536. -/
theorem addIWrapsWithoutFlag : Obligations.AddIWrapsWithoutFlag := by
  refine ⟨encodedBy_of_row (r := ⟨.addI, 0xF0FF, 0xF01E⟩) (by decide) (by decide), fun x s => ?_⟩
  refine completes_of_setI (p := fun a => a.toNat = (s.i.toNat + (s.getV x).toNat) % 65536) rfl ?_
  rw [BitVec.toNat_add, BitVec.toNat_setWidth_of_le (by decide)]

/-- Settles O50: the two table entries, and the skips on whether the latched key is the register's value. -/
theorem keyTestsReadTheLatch : Obligations.KeyTestsReadTheLatch := by
  refine ⟨encodedBy_of_row (r := ⟨.skp, 0xF0FF, 0xE09E⟩) (by decide) (by decide),
    encodedBy_of_row (r := ⟨.sknp, 0xF0FF, 0xE0A1⟩) (by decide) (by decide), fun x s hlatch => ?_,
    fun x s k hlatch => ?_⟩
  · have hno : keyMatches s.latch (s.getV x) = false := by rw [hlatch]; rfl
    exact ⟨completes_of_skipIf (p := False) rfl (by rw [hno]; decide),
      completes_of_skipIf (p := True) rfl (by rw [hno]; decide)⟩
  · have hmatch : keyMatches s.latch (s.getV x) = true ↔ k.toNat = (s.getV x).toNat := by
      rw [keyMatches_iff, hlatch]
      simp
    refine ⟨completes_of_skipIf rfl hmatch, completes_of_skipIf rfl ?_⟩
    rw [Bool.not_eq_true', ← Bool.not_eq_true, hmatch]

/-- Settles O44: the table entry, and the screen written with cells that are all false. -/
theorem clsClearsTheScreen : Obligations.ClsClearsTheScreen :=
  ⟨encodedBy_of_row (r := ⟨.cls, 0xFFFF, 0x00E0⟩) (by decide) (by decide), fun s =>
    ⟨_, rfl, rfl, rfl, ((KeepsBut.refl _ s).setFb rfl _).completed _ _, fun k => Vector.getElem_replicate k.isLt⟩⟩

end Sys2Proof.Machine

/-! The memory transfers: what a store and a load leave, a store read back by a load, and by the fetch. -/

namespace Sys2Proof.Machine

/-! ## The three transfers with their bytes in memory (R183 to R185) -/

theorem exec_ldB_of_inside {s : State} (h : indexed s 2 < Config.memSize) (x : Reg) :
    exec (.ldB x) s = advance { s with mem := s.mem.writeList (indexed s 0) (decimalDigits (s.getV x)) } :=
  checked_of_inside (fun _ hk => indexed_lt_of_le h (Nat.le_of_lt_succ hk)) _ _

theorem exec_storeRegs_of_inside {x : Reg} {s : State} (h : indexed s x.val < Config.memSize) :
    exec (.storeRegs x) s = advance { s with
      mem := s.mem.writeList (indexed s 0) (registersUpTo x s)
      i := BitVec.ofNat 16 (indexed s (x.val + 1)) } :=
  checked_of_inside (fun _ hk => indexed_lt_of_le h (Nat.le_of_lt_succ hk)) _ _

theorem exec_loadRegs_of_inside {x : Reg} {s : State} (h : indexed s x.val < Config.memSize) :
    exec (.loadRegs x) s = advance { s with
      v := loadFrom s.mem (indexed s 0) s.v (x.val + 1)
      i := BitVec.ofNat 16 (indexed s (x.val + 1)) } :=
  checked_of_inside (fun _ hk => indexed_lt_of_le h (Nat.le_of_lt_succ hk)) _ _

/-! ## The bytes stored and loaded -/

theorem read_writeList_indexed (s : State) {bytes : List Byte} {k : Nat} (h : k < bytes.length) :
    (s.mem.writeList (indexed s 0) bytes).read (indexed s k) = bytes[k] :=
  Memory.read_writeList_of_lt s.mem (indexed s 0) bytes h

theorem read_writeList_registersUpTo (s : State) {x k : Reg} (h : k ≤ x) :
    (s.mem.writeList (indexed s 0) (registersUpTo x s)).read (indexed s k.val) = s.getV k := by
  have hk : k.val < (registersUpTo x s).length := by
    rw [registersUpTo_length]
    exact Nat.lt_succ_of_le h
  rw [read_writeList_indexed s hk, registersUpTo_getElem]
  rfl

theorem toNat_hundreds (b : Byte) : (b / 100#8).toNat = b.toNat / 100 := BitVec.toNat_udiv

theorem toNat_tens (b : Byte) : (b / 10#8 % 10#8).toNat = b.toNat / 10 % 10 := by
  rw [BitVec.toNat_umod, BitVec.toNat_udiv]
  rfl

theorem toNat_ones (b : Byte) : (b % 10#8).toNat = b.toNat % 10 := BitVec.toNat_umod

/-- The digits of a byte as `LD B` leaves them (R183). -/
theorem read_writeList_decimalDigits (s : State) (b : Byte) :
    ((s.mem.writeList (indexed s 0) (decimalDigits b)).read (indexed s 0)).toNat = b.toNat / 100 ∧
    ((s.mem.writeList (indexed s 0) (decimalDigits b)).read (indexed s 1)).toNat = b.toNat / 10 % 10 ∧
    ((s.mem.writeList (indexed s 0) (decimalDigits b)).read (indexed s 2)).toNat = b.toNat % 10 := by
  have hread {k : Nat} (hk : k < 3) := congrArg BitVec.toNat (read_writeList_indexed s (bytes := decimalDigits b) hk)
  exact ⟨(hread (by decide)).trans (toNat_hundreds b), (hread (by decide)).trans (toNat_tens b),
    (hread (by decide)).trans (toNat_ones b)⟩

/-- The advance of `I` past bytes that are in memory does not wrap. -/
theorem toNat_ofNat_indexed {s : State} {n : Nat} (h : indexed s n < Config.memSize) :
    (BitVec.ofNat 16 (indexed s (n + 1))).toNat = s.i.toNat + n + 1 := by
  rw [BitVec.toNat_ofNat]
  exact Nat.mod_eq_of_lt (Nat.lt_of_le_of_lt h (by decide))

/-- Settles O39: the table entry, the three digits stored, and the fault of the lowest address outside. -/
theorem ldBStoresTheDecimalDigits : Obligations.LdBStoresTheDecimalDigits := by
  refine ⟨encodedBy_of_row (r := ⟨.ldB, 0xF0FF, 0xF033⟩) (by decide) (by decide), fun x s h => ?_,
    fun x s k hk hlow => traps_of_faulted (checked_of_lowestOutside hlow hk _ _)⟩
  have hstored := (KeepsBut.refl { bytes := addressesFromI s 3 } s).writeList
    (bytes := decimalDigits (s.getV x)) fun _ hk => add_mem_addressesFromI s hk
  exact completes_of_advance (exec_ldB_of_inside h x) rfl hstored (read_writeList_decimalDigits s (s.getV x))

/-- Settles O40: the table entry, the registers stored, `I` past them, and the fault of the lowest address outside. -/
theorem storeRegsStoresAndAdvancesI : Obligations.StoreRegsStoresAndAdvancesI := by
  refine ⟨encodedBy_of_row (r := ⟨.storeRegs, 0xF0FF, 0xF055⟩) (by decide) (by decide), fun x s h => ?_,
    fun x s k hk hlow => traps_of_faulted (checked_of_lowestOutside hlow (Nat.lt_succ_of_le hk) _ _)⟩
  have hstored := (KeepsBut.refl { bytes := addressesFromI s (x.val + 1), index := true } s).writeList
    (bytes := registersUpTo x s) fun _ hk => add_mem_addressesFromI s (registersUpTo_length x s ▸ hk)
  exact completes_of_advance (exec_storeRegs_of_inside h) rfl (hstored.setI rfl _)
    ⟨fun _ hk => read_writeList_registersUpTo s hk, toNat_ofNat_indexed h⟩

/-- Settles O41: the table entry, the registers loaded, `I` past the bytes, and the fault of the lowest address
outside. -/
theorem loadRegsLoadsAndAdvancesI : Obligations.LoadRegsLoadsAndAdvancesI := by
  refine ⟨encodedBy_of_row (r := ⟨.loadRegs, 0xF0FF, 0xF065⟩) (by decide) (by decide), fun x s h => ?_,
    fun x s k hk hlow => traps_of_faulted (checked_of_lowestOutside hlow (Nat.lt_succ_of_le hk) _ _)⟩
  have hloaded := (KeepsBut.refl { regs := regsUpTo x, index := true } s).loadFrom s.mem (indexed s 0)
    fun _ hj => mem_regsUpTo.2 (Nat.le_of_lt_succ hj)
  have hv (k : Reg) := loadFrom_getElem s.mem (indexed s 0) s.v (x.val + 1) k.val k.isLt
  exact completes_of_advance (exec_loadRegs_of_inside h) rfl (hloaded.setI rfl _)
    ⟨fun k hk => (hv k).trans (if_pos (Nat.lt_succ_of_le hk)),
      fun k hk => (hv k).trans (if_neg (Nat.not_lt.2 hk)), toNat_ofNat_indexed h⟩

/-! ## A store seen by a load and by the fetch (R60, R65) -/

/-- Settles O42: the load reads at each address what the store left there. -/
theorem storedRegistersLoadBack : Obligations.StoredRegistersLoadBack := by
  intro x s t u w h hstore hmem hi hload
  have hidx (k : Nat) : indexed u k = indexed s k := by simp only [indexed, hi]
  cases (exec_storeRegs_of_inside h).symm.trans hstore
  cases (exec_loadRegs_of_inside ((hidx _).trans_lt h)).symm.trans hload
  refine ⟨fun k hk => ?_, ?_, hmem⟩
  · refine (loadFrom_getElem u.mem (indexed u 0) u.v (x.val + 1) k.val k.isLt).trans ?_
    rw [if_pos (Nat.lt_succ_of_le hk), hmem, show indexed u 0 + k.val = indexed s k.val from hidx k.val]
    exact read_writeList_registersUpTo s hk
  · exact congrArg (BitVec.ofNat 16) (hidx _)

/-- A fetch of two bytes in memory, at addresses from `I` on. -/
theorem fetch_of_inside {s t : State} {k : Nat} (h : indexed s (k + 1) < Config.memSize)
    (hpc : t.pc.toNat = indexed s k) :
    t.fetch = .ok (wordOfBytes (t.mem.read (indexed s k)) (t.mem.read (indexed s (k + 1)))) := by
  rw [State.fetch_eq, hpc]
  exact if_pos h

theorem wordOfBytes_toNat (hi lo : Byte) : (wordOfBytes hi lo).toNat = hi.toNat * 256 + lo.toNat := append_toNat hi lo

/-- Settles O43: the fetch reads the two bytes at `pc` and `pc + 1`, which the store left there. -/
theorem storedBytesAreFetched : Obligations.StoredBytesAreFetched := by
  refine ⟨fun x k s t pc hk h hpc hstore => ?_, fun x s t pc h hstore => ?_⟩
  · cases (exec_storeRegs_of_inside h).symm.trans hstore
    have hsucc : (k + 1).val = k.val + 1 := Fin.val_add_one_of_lt (hk.trans_le (Fin.le_last x))
    have hnext : k + 1 ≤ x := by rw [Fin.le_def, hsucc]; exact hk
    rw [fetch_of_inside (indexed_lt_of_le h hk) hpc, ← hsucc]
    congr 2
    · exact read_writeList_registersUpTo s hk.le
    · exact read_writeList_registersUpTo s hnext
  · cases (exec_ldB_of_inside h x).symm.trans hstore
    obtain ⟨hhundreds, htens, hones⟩ := read_writeList_decimalDigits s (s.getV x)
    refine ⟨fun hpc => ⟨_, fetch_of_inside (indexed_lt_of_le h (by decide)) hpc, ?_⟩,
      fun hpc => ⟨_, fetch_of_inside h hpc, ?_⟩⟩
    · rw [wordOfBytes_toNat]
      exact congrArg₂ (· * 256 + ·) hhundreds htens
    · rw [wordOfBytes_toNat]
      exact congrArg₂ (· * 256 + ·) htens hones

end Sys2Proof.Machine

/-! `DRW`: what it draws, where it halts, and what two of them do. -/

namespace Sys2Proof.Machine

/-! ## Where a bit lands (R213, R214, R217) -/

theorem rowTarget_clip_eq_some_iff (t : Nat) (py : Fin 32) : rowTarget .clip t = some py ↔ py.val = t := by
  simp only [rowTarget]
  split
  · simp only [Option.some.injEq, Fin.ext_iff]
    exact eq_comm
  · next h => exact iff_of_false nofun fun he => h (he ▸ py.isLt)

/-- Under this hardware's policy a sprite's rows hit the pixels its drawn 1 bits land on. -/
theorem rowsHit_iff_lands (x y : Reg) (n : Nibble) (s : State) (px : Fin 64) (py : Fin 32) :
    rowsHit rowPolicy s.mem (s.getV x) (s.getV y) (indexed s 0) n.toNat px py ↔ Lands x y n s px py := by
  constructor
  · rintro ⟨row, hrow, hpy, col, hcol, hbit, rfl⟩
    exact ⟨row, col, hrow, hcol, hbit, rfl, (rowTarget_clip_eq_some_iff _ _).1 hpy⟩
  · rintro ⟨row, col, hrow, hcol, hbit, hpx, hpy⟩
    exact ⟨row, hrow, (rowTarget_clip_eq_some_iff _ _).2 hpy, col, hcol, hbit, Fin.ext hpx.symm⟩

/-- Settles O58: a cell tells its pixel, the pixel its row and its column. -/
theorem noCellIsToggledTwice : Obligations.NoCellIsToggledTwice := by
  intro policy x0 y0 row row' col col' py py' hrow hrow' hcol hcol' hpy hpy' hcell
  obtain ⟨hpx, rfl⟩ := cellIndex_inj (congrArg Fin.val hcell)
  exact ⟨rowTarget_inj policy y0 (by omega) (by omega) hpy hpy', columnTarget_inj x0 hcol hcol' hpx⟩

/-! ## One `DRW` (R211 to R216) -/

/-- `t` holds the screen of `s` with exactly the pixels inverted that a drawn 1 bit lands on, and in `VF` whether one of
them was on. -/
def Draws (x y : Reg) (n : Nibble) (s t : State) : Prop :=
  (∀ px py, Lands x y n s px py → pixel t px py = !pixel s px py) ∧
  (∀ px py, ¬Lands x y n s px py → pixel t px py = pixel s px py) ∧
  ∃ c, t.getV vf = flagByte c ∧ (c = true ↔ ∃ px py, Lands x y n s px py ∧ pixel s px py = true)

theorem completes_drw {n : Nibble} {s : State} (h : ∀ row, row < n.toNat → indexed s row < Config.memSize) (x y : Reg) :
    Completes (.drw x y n) s (s.pc + 2#16) true { regs := [vf], screen := true } (Draws x y n s) := by
  obtain ⟨hcells, hcollided⟩ := blitRows_spec rowPolicy s.mem (s.getV x) (s.getV y) (indexed s 0) n.toNat
    (Nat.le_of_lt n.isLt) { fb := s.fb, collided := false }
  simp only [rowsHit_iff_lands, Bool.false_eq_true, false_or] at hcells hcollided
  refine ⟨_, checked_of_inside h _ _, rfl, rfl,
    (((KeepsBut.refl _ s).setFb rfl _).setV (List.mem_singleton_self vf) _).completed _ _,
    fun px py => (hcells px py).2, fun px py => (hcells px py).1, _, State.getV_setV_same _ _ _, hcollided⟩

/-- Settles O45: the table entry, and the blit of every row, which toggles each cell at most once. -/
theorem drwInvertsThePixelsItLandsOn : Obligations.DrwInvertsThePixelsItLandsOn := by
  refine ⟨encodedBy_of_row (r := ⟨.drw, 0xF000, 0xD000⟩) (by decide) (by decide), fun x y n s h => ?_⟩
  obtain ⟨t, he, hpc, hreply, hkeeps, hon, hoff, c, hvf, hc⟩ := completes_drw h x y
  refine ⟨t, he, hpc, hreply, hkeeps, hon, hoff, fun hcol => ?_, fun hno => ?_⟩
  · rw [hvf, flagByte_eq_one_iff, hc]
    exact hcol
  · rw [hvf, flagByte_eq_zero_iff, ← Bool.not_eq_true, hc]
    rintro ⟨px, py, hlands, hpx⟩
    exact Bool.noConfusion ((hno px py hlands).symm.trans hpx)

/-- Settles O46: the check comes before the drawing, over every row. -/
theorem drwOutsideMemoryHalts : Obligations.DrwOutsideMemoryHalts := fun _ _ _ _ _ hk hlow =>
  traps_of_faulted (checked_of_lowestOutside hlow hk _ _)

/-- Two screens whose pixels agree are the same. -/
theorem fb_eq_of_pixel_eq {s t : State} (h : ∀ px py, pixel t px py = pixel s px py) : t.fb = s.fb := by
  apply Vector.ext
  intro j hj
  have hcell : (cellIndex ⟨j % 64, Nat.mod_lt _ (by decide)⟩ ⟨j / 64, by omega⟩).val = j := Nat.mod_add_div' j 64
  have hpixel := h ⟨j % 64, Nat.mod_lt _ (by decide)⟩ ⟨j / 64, by omega⟩
  simpa only [pixel, hcell] using hpixel

/-- Settles O47: no bit of the sprite is 1, so none lands. -/
theorem blankSpriteDrawsNothing : Obligations.BlankSpriteDrawsNothing := by
  intro x y n s h
  obtain ⟨t, he, -, -, -, -, hoff, c, hvf, hc⟩ := completes_drw (fun row hrow => (h row hrow).1) x y
  have hno : ∀ px py, ¬Lands x y n s px py := by
    rintro px py ⟨row, col, hrow, -, hbit, -⟩
    rw [(h row hrow).2] at hbit
    simp at hbit
  refine ⟨t, he, fb_eq_of_pixel_eq fun px py => hoff px py (hno px py), ?_⟩
  rw [hvf, flagByte_eq_zero_iff, ← Bool.not_eq_true, hc]
  rintro ⟨px, py, hlands, -⟩
  exact hno px py hlands

/-! ## Two identical `DRW`s (R218) -/

/-- Where a sprite lands depends on memory, `I` and the two coordinates, which a `DRW` keeps unless one is in `VF`. -/
theorem lands_iff_of_keepsBut {x y : Reg} {s t : State} (hx : x ≠ vf) (hy : y ≠ vf)
    (h : KeepsBut { regs := [vf], screen := true } s t) (n : Nibble) (px : Fin 64) (py : Fin 32) :
    Lands x y n t px py ↔ Lands x y n s px py := by
  obtain ⟨hregs, hbytes, hindex, -⟩ := h
  simp only [Lands, indexed, hindex rfl, hregs x (mt List.mem_singleton.1 hx), hregs y (mt List.mem_singleton.1 hy),
    hbytes _ List.not_mem_nil]

/-- The second of two identical `DRW`s draws the same pixels over the screen of the first. -/
theorem exists_double_drw {x y : Reg} {n : Nibble} {s : State} (hx : x ≠ vf) (hy : y ≠ vf)
    (h : ∀ row, row < n.toNat → indexed s row < Config.memSize) :
    ∃ t u, exec (.drw x y n) s = .next t ∧ exec (.drw x y n) t = .next u ∧ Draws x y n s t ∧ Draws x y n t u ∧
      ∀ px py, Lands x y n t px py ↔ Lands x y n s px py := by
  obtain ⟨t, ht, -, -, hkeeps, hst⟩ := completes_drw h x y
  have hindex (k : Nat) : indexed t k = indexed s k := by
    obtain ⟨-, -, hindex, -⟩ := hkeeps
    simp only [indexed, hindex rfl]
  obtain ⟨u, hu, -, -, -, htu⟩ := completes_drw (fun row hrow => (hindex row).trans_lt (h row hrow)) x y
  exact ⟨t, u, ht, hu, hst, htu, lands_iff_of_keepsBut hx hy hkeeps n⟩

/-- Settles O48: the pixels inverted by the first are inverted back by the second. -/
theorem drawingTwiceRestoresTheScreen : Obligations.DrawingTwiceRestoresTheScreen := by
  intro x y n s hx hy h
  obtain ⟨t, u, ht, hu, ⟨hon, hoff, -⟩, ⟨hon', hoff', -⟩, hsame⟩ := exists_double_drw hx hy h
  refine ⟨t, u, ht, hu, fb_eq_of_pixel_eq fun px py => ?_⟩
  by_cases hl : Lands x y n s px py
  · rw [hon' px py ((hsame px py).2 hl), hon px py hl, Bool.not_not]
  · rw [hoff' px py (mt (hsame px py).1 hl), hoff px py hl]

theorem vf_eq_one_iff_of_draws {x y : Reg} {n : Nibble} {s t : State} (h : Draws x y n s t) :
    t.getV vf = 1#8 ↔ ∃ px py, Lands x y n s px py ∧ pixel s px py = true := by
  obtain ⟨-, -, c, hvf, hc⟩ := h
  rw [hvf, flagByte_eq_one_iff, hc]

/-- Settles O49: a cell the sprite lands on is on for the second where it was off for the first. -/
theorem collisionsOfADoubleDraw : Obligations.CollisionsOfADoubleDraw := by
  intro x y n s hx hy h
  obtain ⟨t, u, ht, hu, hst, htu, hsame⟩ := exists_double_drw hx hy h
  refine ⟨t, u, ht, hu, vf_eq_one_iff_of_draws hst, ?_⟩
  rw [vf_eq_one_iff_of_draws htu]
  refine exists₂_congr fun px py => ?_
  rw [hsame]
  refine and_congr_right fun hl => ?_
  obtain ⟨hon, -⟩ := hst
  rw [hon px py hl, Bool.not_eq_true']

end Sys2Proof.Machine

/-! The cycle as a step, the host's operations, the halt, and the sound timer. -/

namespace Sys2Proof.Machine

/-! ## The cycle as a step (R85, R287) -/

theorem step_eq_cycle {s : State} (hrun : s.halt = none) (h : s.cyclesNext) : step s = cycle s := by
  rw [step_of_cyclesNext s h, hrun]

/-- Both forms of the step answer what the cycle does. -/
theorem cycleAnswers_of_cycle {s t : State} (hrun : s.halt = none) (h : cycle s = .next t) : CycleAnswers s t :=
  ⟨h, fun hnext => (step_eq_cycle hrun hnext).trans h,
    fun _ _ hhost => by rw [step_of_pending_cycle s hrun hhost, h, mapNext]⟩

theorem fetch_of_lt {s : State} (h : s.pc.toNat + 1 < Config.memSize) :
    s.fetch = .ok (wordOfBytes (s.mem.read s.pc.toNat) (s.mem.read (s.pc.toNat + 1))) := by
  rw [State.fetch_eq]
  exact if_pos h

/-- Settles O7: the cycle fetches the two bytes, which decode to the instruction. -/
theorem stepRunsTheDecodedInstruction : Obligations.StepRunsTheDecodedInstruction := by
  intro s i hrun hpc hdecode
  have hword := decodeBytes_pair_eq_ok_iff.1 hdecode
  have hcycle : cycle s = exec i s := by
    simp only [cycle, fetch_of_lt hpc, hword]
  refine ⟨wellFormed_of_decodeWord hword, fun hnext => (step_eq_cycle hrun hnext).trans hcycle, fun r rest hhost => ?_⟩
  rw [step_of_pending_cycle s hrun hhost, hcycle]

/-- Settles O8: the cycle of an unknown word is `execUnknown`, which only advances. -/
theorem unknownWordIsANoOp : Obligations.UnknownWordIsANoOp := by
  intro s hrun hpc hunknown
  have hcycle : cycle s = .next (s.completed s.pc false) := by
    simp only [cycle, fetch_of_lt hpc, hunknown]
    rfl
  exact ⟨_, cycleAnswers_of_cycle hrun hcycle, rfl, rfl, rfl, (KeepsBut.refl {} s).completed _ _⟩

/-- Settles O9: the fetch's fault is of the greater of `pc` and the end of memory. -/
theorem fetchOutsideMemoryHalts : Obligations.FetchOutsideMemoryHalts := by
  intro s hrun hpc
  have hfetch : s.fetch = .error (.memoryOutOfBounds .fetch (max s.pc.toNat Config.memSize)) := by
    rw [State.fetch_eq]
    exact if_neg (Nat.not_le.2 (Nat.lt_succ_of_le hpc))
  have hcycle : cycle s = .next (s.faulted (.memoryOutOfBounds .fetch (max s.pc.toNat Config.memSize))) := by
    simp only [cycle, hfetch, raise_eq]
  refine ⟨_, _, cycleAnswers_of_cycle hrun hcycle, ?_, Nat.le_max_right _ _, fun h => ?_, rfl, rfl,
    SameItems.refl s⟩
  · simp only [Config.memSize] at hpc ⊢
    omega
  · simp only [Config.memSize] at h ⊢
    omega

/-! ## The host's operations (R280, R285, R300) -/

theorem toNat_ticked (t : Byte) : (ticked t).toNat = t.toNat - 1 := by
  unfold ticked
  split <;> bv_omega

/-- Settles O53: the floored subtraction on both timers. -/
theorem tickFloorsBothTimers : Obligations.TickFloorsBothTimers := by
  intro s rest hhost
  refine ⟨_, step_of_pending s hhost, ?_, ?_, SameItems.refl s, rfl, rfl⟩
  · refine (toNat_ticked s.dt).trans ?_
    split <;> omega
  · refine (toNat_ticked s.st).trans ?_
    split <;> omega

/-- Settles O54: each operation is one update of the latch, or one reply. -/
theorem keyAndReadOperations : Obligations.KeyAndReadOperations := fun s _ =>
  ⟨fun _ hhost => ⟨_, step_of_pending s hhost, rfl, SameItems.refl s, rfl⟩,
    fun hhost => ⟨_, step_of_pending s hhost, rfl, SameItems.refl s, rfl⟩,
    fun hhost => ⟨_, step_of_pending s hhost, rfl, SameItems.refl s, rfl⟩,
    fun hhost => ⟨_, step_of_pending s hhost, rfl, SameItems.refl s, rfl⟩,
    fun hhost => ⟨_, step_of_pending s hhost, rfl, SameItems.refl s, rfl⟩,
    fun hhost => ⟨_, step_of_pending s hhost, rfl, SameItems.refl s, rfl⟩⟩

/-- Below the image memory holds its reset contents. -/
theorem read_resetWith_below (image : List Byte) {a : Nat} (h : a < Config.progStart) :
    (State.resetWith image).mem.read a = Memory.initial a :=
  Memory.read_writeList_of_outside [] Config.progStart image (.inl h)

/-- Settles O56: the reset state with the image above `0x200`, or the refusal. -/
theorem resetSetsEveryItem : Obligations.ResetSetsEveryItem := by
  intro s image rest hhost
  refine ⟨fun hfits => ⟨_, step_reset hhost hfits, rfl, fun x => Vector.getElem_replicate x.isLt, rfl, rfl,
    fun j => Vector.getElem_replicate j.isLt, rfl, rfl, fun k => Vector.getElem_replicate k.isLt, rfl, rfl, rfl,
    fun a ha => ?_, fun a hlow ha => ?_⟩, fun hlong => ?_⟩
  · exact (read_resetWith_below image (ha.trans (by decide))).trans (if_pos ha)
  · exact (read_resetWith_below image ha).trans (Memory.initial_eq_zero hlow)
  · rw [step_of_pending s hhost]
    exact if_neg (Nat.not_le.2 hlong)

/-! ## The halt (R274) -/

theorem hostStep_keeps_halt {s t : State} {r : HaltRecord} {op : HostOp} (hhalt : s.halt = some r)
    (hop : ∀ image, op ≠ .reset image) (h : hostStep op s = .next t) : t.halt = some r := by
  cases op
  case reset image => exact absurd rfl (hop image)
  case cycle b =>
    simp only [hostStep, hhalt] at h
    cases h
    exact hhalt
  all_goals
    cases h
    exact hhalt

/-- Settles O57, operation by operation; the stop of the step is that of `step_of_cyclesNext`. -/
theorem onlyResetEndsAHalt : Obligations.OnlyResetEndsAHalt := by
  intro s r hhalt
  refine ⟨fun hnext => ?_, fun b rest hhost => ?_, fun op rest t hhost hop ht => ?_, fun rest hhost => ?_,
    fun k rest hhost => ⟨_, step_of_pending s hhost, rfl⟩, fun rest hhost => ⟨_, step_of_pending s hhost, rfl⟩,
    fun rest hhost => ⟨_, step_of_pending s hhost, rfl⟩, fun image rest hhost hfits => ⟨_, step_reset hhost hfits, rfl⟩⟩
  · rw [step_of_cyclesNext s hnext, hhalt]
  · refine ⟨State.replied { s with host := rest } .noCycle, ?_, SameItems.refl s, rfl⟩
    rw [step_of_pending s hhost]
    simp only [hostStep, hhalt]
  · rw [step_of_pending s hhost] at ht
    exact hostStep_keeps_halt (s := { s with host := rest }) hhalt hop ht
  · exact ⟨_, step_of_pending s hhost, toNat_ticked s.dt, toNat_ticked s.st⟩

/-! ## Any sequence of host operations (R287) -/

theorem cycle_keeps_schedule {s t : State} (h : cycle s = .next t) : t.schedule = s.schedule := by
  rcases cycle_cases s with ⟨f, -, hc⟩ | ⟨w, i, -, -, hc⟩ | ⟨w, -, -, hc⟩
  · cases hc.symm.trans h
    rfl
  · rw [hc] at h
    rcases exec_cases i s with ⟨u, pcH, c, he, -, -, hsched⟩ | he | ⟨f, he⟩ <;> cases he.symm.trans h
    · exact hsched
    · rfl
    · rfl
  · cases hc.symm.trans h
    rfl

theorem hostStep_keeps_host {s t : State} {op : HostOp} (h : hostStep op s = .next t) :
    t.host = s.host ∧ t.schedule = s.schedule := by
  cases op
  case reset image =>
    simp only [hostStep, hostReset] at h
    split at h <;> cases h
    exact ⟨rfl, rfl⟩
  case cycle b =>
    simp only [hostStep] at h
    split at h
    · cases h
      exact ⟨rfl, rfl⟩
    · obtain ⟨u, hu, rfl⟩ := (mapNext_eq_next_iff _ _ _).1 h
      exact ⟨rfl, (cycle_keeps_schedule hu).trans rfl⟩
  all_goals
    cases h
    exact ⟨rfl, rfl⟩

/-- Settles O60: the pending operation runs; a free one runs as the pending one it is put in as. -/
theorem theHostMayRunAnySequence : Obligations.TheHostMayRunAnySequence := by
  intro s
  refine ⟨fun op rest hhost => ⟨step_of_pending s hhost, fun t ht => ?_⟩,
    fun n hhost hsched => ⟨step_of_free s hhost hsched, fun t ht => ?_⟩⟩
  · rw [step_of_pending s hhost] at ht
    exact hostStep_keeps_host ht
  · rw [step_of_free s hhost hsched, step_of_pending _ rfl] at ht
    exact hostStep_keeps_host ht

/-! ## The sound timer (R33, R242) -/

/-- The state with another value in `ST`. -/
def State.withST (s : State) (b : Byte) : State := { s with st := b }

theorem pop_withST (s : State) (b : Byte) : (s.withST b).pop = s.pop.map (fun p => (p.1, p.2.withST b)) := by
  unfold State.pop
  by_cases h : 0 < s.sp.val <;> simp [State.withST, h]

theorem push_withST (s : State) (b : Byte) (w : Word) :
    (s.withST b).push w = (s.push w).map (fun t => t.withST b) := by
  unfold State.push
  by_cases h : s.sp.val < 16 <;> simp [State.withST, h]

theorem checked_withST {kind : AccessKind} {base count : Nat} {s : State} {b : Byte} {r q : Result}
    (h : q = mapNext (fun t => t.withST b) r) :
    checked kind base count (s.withST b) q = mapNext (fun t => t.withST b) (checked kind base count s r) := by
  subst h
  simp only [checked_eq]
  split <;> rfl

theorem exec_withST {i : Instr} (hi : ¬∃ x, i = .ldSTVx x) (s : State) (b : Byte) :
    exec i (s.withST b) = mapNext (fun t => t.withST b) (exec i s) := by
  cases i
  case ldSTVx x => exact absurd ⟨x, rfl⟩ hi
  case ret =>
    simp only [exec, execRet, pop_withST]
    cases s.pop <;> rfl
  case call addr =>
    have hpc : (s.withST b).pc = s.pc := rfl
    simp only [exec, execCall, hpc, push_withST]
    cases s.push s.pc <;> rfl
  case ldVxK x =>
    have hlatch : (s.withST b).latch = s.latch := rfl
    simp only [exec, execLdVxK, hlatch]
    cases s.latch <;> rfl
  case drw | ldB | storeRegs | loadRegs => exact checked_withST rfl
  all_goals rfl

/-- Settles O59: `LD ST, Vx` writes over the value, every other instruction carries it along. -/
theorem noInstructionReadsTheSoundTimer : Obligations.NoInstructionReadsTheSoundTimer := by
  intro i s t b h
  by_cases hi : ∃ x, i = .ldSTVx x
  · rw [if_pos hi, ← h]
    obtain ⟨x, rfl⟩ := hi
    rfl
  · rw [if_neg hi]
    exact (exec_withST hi s b).trans (by rw [h]; rfl)

end Sys2Proof.Machine
